-- ==== Sys2Proof/Word.lean ====
section
/-! DEFINITION. The word types of the MFAU: byte, command word, field register value. -/

namespace Sys2Proof

/-- One byte of the buffer memory (20_memory.md R50). -/
abbrev Byte := BitVec 8

/-- A command word, `CMDW = 32` bits (30_encoding.md R80). -/
abbrev Word := BitVec 32

/-- The value of a field register: any of the 2^256 values, weakly reduced (10_state.md R21; 40_field_arith.md R111). -/
abbrev Elem := BitVec 256

end Sys2Proof
end

