-- ==== Sys2Proof/Config.lean ====
section
/-! DEFINITION. The parameters of the implementation (00_scope.md R8, R9). `LAT(op)` and `HOST_BUS` are OPEN there and are
not modelled (logs 6 and 7); no free value is needed (00_scope.md R18, R19). -/

namespace Sys2Proof.Config

/-- The field prime (R8). -/
def P : Nat := 2^255 - 19

/-- The constant of `mul_scalar`, (A-2)/4 (R8). -/
def A24 : Nat := 121665

/-- 2^255 mod P, the fold constant of bit 255 (R8). -/
def C255 : Nat := 19

/-- 2^256 mod P, the fold constant of a carry out of limb 3 (R9; 90_conflicts.md C1). -/
def C256 : Nat := 38

/-- Bytes of a scalar, a point, an output, a slot (R8). -/
def NBYTES : Nat := 32

/-- Scalar bits the ladder accounts for (R8). -/
def NBITS : Nat := 255

/-- Doublings after the ladder loop (R8, R9: `NTAIL = NPOST = 3`; 90_conflicts.md C3). -/
def NTAIL : Nat := 3

/-- Add-and-double steps of one ladder: 252 (R9). -/
def NSTEP : Nat := NBITS - NTAIL

/-- Bytes of the buffer memory: four slots of 32 (R9; 20_memory.md R50). -/
def BUFBYTES : Nat := 128

end Sys2Proof.Config
end

