-- ==== Sys2Proof/Syntax.lean ====
section
/-! DEFINITION. The syntax of the MFAU command set, version 1: one constructor per row of spec/opcode_table.json. -/

namespace Sys2Proof

/-- A field register `f0 .. f15` by its index (10_state.md R21). -/
abbrev RegIdx := Fin 16

/-- A pair `n`: the registers `(f[2n], f[2n+1])`, `n = 0 .. 7` (10_state.md R22). The word names it by its even register. -/
abbrev PairIdx := Fin 8

/-- A slot of the buffer memory (20_memory.md R51). -/
abbrev Slot := Fin 4

/-- The 22 commands, in the order of 30_encoding.md R84; operands in the order of the assembler (R105). -/
inductive Instr
  | nop
  | fadd (d a b : RegIdx)
  | fsub (d a b : RegIdx)
  | fmul (d a b : RegIdx)
  | fsqr (d a : RegIdx)
  | fmuls (d a : RegIdx)
  | fmul2 (d a b : PairIdx)
  | fsqr2 (d a : PairIdx)
  | cswap (a b : RegIdx) (s : Bool)
  | cswap2 (a b : PairIdx) (s : Bool)
  | fmov (d a : RegIdx)
  | fseti (d : RegIdx) (imm : BitVec 12)
  | padbl
  | pdbl
  | finv (d a : RegIdx)
  | ladder
  | x25519
  | fdec (d : RegIdx) (slot : Slot)
  | fldr (d : RegIdx) (slot : Slot)
  | fenc (slot : Slot) (r : RegIdx)
  | fstr (slot : Slot) (r : RegIdx)
  | wipe
  deriving DecidableEq, Repr

end Sys2Proof
end

