-- ==== Sys2Proof/Machine/State.lean ====
section
/-! DEFINITION. The state of the MFAU as plain data, the reasons a step stops, and the state after reset. -/

namespace Sys2Proof.Machine

/-- The buffer memory BUF, 128 bytes (20_memory.md R50): the listed bytes, by address; an unlisted address reads as 0, its
reset value (10_state.md R38). -/
abbrev Memory := List Host.Cell

/-- The canonical form: strictly rising addresses, all inside BUF, and no entry equal to what an unlisted address reads as. -/
abbrev Memory.wf (m : Memory) : Prop :=
  m.Pairwise (fun c c' => c.1 < c'.1) ∧ ∀ c ∈ m, c.1 < Config.BUFBYTES ∧ c.2 ≠ 0#8

/-- The widths of a host access: 1, 2, 4 or 8 bytes (20_memory.md R59; log 6). -/
inductive HostWidth
  | w1 | w2 | w4 | w8
  deriving DecidableEq, Repr

/-- An access of the host port at a 10-bit byte address of the host space (20_memory.md R56). A write carries the bytes of
its value little-endian (R59); bits of `value` above the width are not delivered (log 6). -/
inductive HostAccess
  | read (addr : BitVec 10) (width : HostWidth)
  | write (addr : BitVec 10) (width : HostWidth) (value : BitVec 64)
  deriving DecidableEq, Repr

/-- What happens next at the unit's boundary: an access of the host, a reset of the environment, or a turn of the unit
(10_state.md R20, R31; 60_exceptions.md R214; 70_reset_and_hazards.md R230; log 1). -/
inductive Turn
  | host (access : HostAccess)
  | reset
  | unit
  deriving DecidableEq, Repr

/-- The state. `f` to `seqI` are the spec's; `schedule` and `answers` are the model's own (logs 1 and 3). -/
structure State where
  /-- The field registers f0 .. f15 (10_state.md R21). -/
  f : Vector Elem 16
  /-- The buffer memory BUF (10_state.md R34; 20_memory.md R50). -/
  buf : Memory
  /-- CMDR, the last accepted command word (10_state.md R28). -/
  cmdr : Word
  /-- STATUS.BUSY (10_state.md R30). -/
  busy : Bool
  /-- STATUS.DONE (10_state.md R30). -/
  done : Bool
  /-- STATUS.ILL (10_state.md R30). -/
  ill : Bool
  /-- STATUS.BACC (10_state.md R30). -/
  bacc : Bool
  /-- T, the ladder's running swap flag: a sequencer register used inside one command (10_state.md R36; log 4). -/
  seqT : Bool
  /-- i, the ladder's bit index: a sequencer register used inside one command (10_state.md R36; log 4). -/
  seqI : BitVec 8
  /-- The turns to come, in order (log 1). -/
  schedule : List Turn
  /-- What the host's reads have returned, oldest first (log 3). -/
  answers : List (BitVec 64)
  deriving DecidableEq, Repr

/-- The reasons a step stops with a fault. No legal command faults (00_scope.md R18; 60_exceptions.md R210). -/
inductive Fault
  /-- Raised by a completion step whose CMDR spells no command. The issue step accepts legal words only (10_state.md R32),
  so no run reaches it; the rule R33 of 10_state.md gives such a step no effect. Safe (log 5). -/
  | cmdrSpellsNoCommand
  deriving DecidableEq, Repr

/-- The reasons an instruction has no meaning. -/
inductive Refusal
  /-- Raised by an arm of `exec` for an instruction that has no meaning yet. No arm raises it. Safe. -/
  | notModelled (mnemonic : String)
  deriving DecidableEq, Repr

/-- The outcome of a step or of a command. -/
abbrev Result := Host.Outcome State Fault Refusal

/-- The state after reset (10_state.md R38; 70_reset_and_hazards.md R230), with nothing scheduled and nothing answered. -/
def State.reset : State where
  f := Vector.replicate 16 0#256
  buf := []
  cmdr := 0#32
  busy := false
  done := false
  ill := false
  bacc := false
  seqT := false
  seqI := 0#8
  schedule := []
  answers := []

end Sys2Proof.Machine
end

