-- ==== Sys2Proof/Machine/Flags.lean ====
section
/-! DEFINITION. STATUS, the unit's only flags: the word the host reads, the host's write, and every event that sets or
clears a flag (10_state.md R30 to R33, R35; 60_exceptions.md R211 to R213). -/

namespace Sys2Proof.Machine

/-- The STATUS word: BUSY, DONE, ILL, BACC in bits 0 to 3, bits 31:4 zero (10_state.md R30). -/
def statusWord (s : State) : Word :=
  0#28 ++ BitVec.ofBool s.bacc ++ BitVec.ofBool s.ill ++ BitVec.ofBool s.done ++ BitVec.ofBool s.busy

/-- A host write of `w` to STATUS: write 1 to clear DONE, ILL, BACC; no other effect (10_state.md R31). -/
def clearFlags (w : Word) (s : State) : State :=
  { s with
    done := s.done && !w.getLsbD 1
    ill := s.ill && !w.getLsbD 2
    bacc := s.bacc && !w.getLsbD 3 }

/-- IllegalCommand: `STATUS.ILL <- 1`, nothing else; a flag, not a trap: no state is saved and control goes nowhere
(60_exceptions.md R211, R215). -/
def raiseIllegalCommand (s : State) : State := { s with ill := true }

/-- BusyAccess: `STATUS.BACC <- 1`, nothing else (60_exceptions.md R212). -/
def raiseBusyAccess (s : State) : State := { s with bacc := true }

/-- The flags and CMDR of an accepted issue: `CMDR <- w; BUSY <- 1; DONE <- 0` (10_state.md R32). -/
def acceptCommand (w : Word) (s : State) : State := { s with cmdr := w, busy := true, done := false }

/-- The flags of a completion: `BUSY <- 0; DONE <- 1` (10_state.md R33). -/
def markDone (s : State) : State := { s with busy := false, done := true }

end Sys2Proof.Machine
end

