-- ==== Sys2Proof/Machine/Operands.lean ====
section
/-! DEFINITION. The operand forms of the commands: pairs, limbs, immediates, slots (30_encoding.md R83), and the target of
a host access (20_memory.md R56, R59, R60). -/

namespace Sys2Proof.Machine

/-- The even register of a pair, `f[2n]` (10_state.md R22). -/
def pairEven (p : PairIdx) : RegIdx := ⟨2 * p.val, by omega⟩

/-- The odd register of a pair, `f[2n+1]` (10_state.md R22). -/
def pairOdd (p : PairIdx) : RegIdx := ⟨2 * p.val + 1, by omega⟩

/-- `limb(v, j) = v[64j+63 : 64j]` (00_scope.md R12). -/
def limb (v : Elem) (j : Nat) : BitVec 64 := v.extractLsb' (64 * j) 64

/-- `zext_256(imm12)` (30_encoding.md R83). -/
def zextImm (imm : BitVec 12) : Elem := imm.zeroExtend 256

/-- The byte address of a slot, `32·slot` (20_memory.md R51; 30_encoding.md R83). -/
def slotAddr (s : Slot) : Nat := Config.NBYTES * s.val

/-- The number of bytes of a host access (20_memory.md R59). -/
def HostWidth.bytes : HostWidth → Nat
  | .w1 => 1
  | .w2 => 2
  | .w4 => 4
  | .w8 => 8

/-- What a host access reaches (20_memory.md R56). -/
inductive Target
  /-- CMD, 0x000, one aligned 32-bit word. -/
  | cmd
  /-- STATUS, 0x004, one aligned 32-bit word. -/
  | status
  /-- The BUF window: all bytes in it, the first at `BUF[offset]`. -/
  | bufWindow (offset : Nat)
  /-- The register window: all bytes in it, the first at byte `offset` of it. -/
  | regWindow (offset : Nat)
  /-- Unmapped, or a malformed access (20_memory.md R60, R62; log 2). -/
  | unmapped
  deriving DecidableEq, Repr

/-- The host address map (20_memory.md R56) with the conditions of R59 (all bytes in one window) and R60 (CMD and STATUS as
one aligned 32-bit word). -/
def hostTarget (addr : BitVec 10) (width : HostWidth) : Target :=
  let a := addr.toNat
  let n := width.bytes
  if a = 0x000 ∧ n = 4 then .cmd
  else if a = 0x004 ∧ n = 4 then .status
  else if 0x080 ≤ a ∧ a + n ≤ 0x100 then .bufWindow (a - 0x080)
  else if 0x200 ≤ a ∧ a + n ≤ 0x400 then .regWindow (a - 0x200)
  else .unmapped

end Sys2Proof.Machine
end

