-- ==== Sys2Proof/Machine/Ops.lean ====
section
/-! DEFINITION. The named operations over registers, buffer memory and inputs. The unit has no trap entry and no trap
return (60_exceptions.md R215, R216): its two exception-like events are flags, `raiseIllegalCommand` and `raiseBusyAccess`
of Machine/Flags.lean. -/

namespace Sys2Proof.Machine

/-- Read `f[i]` (00_scope.md R13). No register is hard-wired (10_state.md R21). -/
def State.reg (s : State) (i : RegIdx) : Elem := s.f[i]

/-- `f[i] <- v` (00_scope.md R13). -/
def State.setReg (s : State) (i : RegIdx) (v : Elem) : State := { s with f := s.f.set i v }

/-- The byte at an address: the listed one, else 0 (10_state.md R38). -/
def Memory.read : Memory → Nat → Byte
  | [], _ => 0#8
  | (b, w) :: m, a => if b = a then w else Memory.read m a

/-- Put `v` at address `a`, keeping the canonical form: a zero byte is not listed. -/
def Memory.write : Memory → Nat → Byte → Memory
  | [], a, v => if v = 0#8 then [] else [(a, v)]
  | (b, w) :: m, a, v =>
    if b < a then (b, w) :: Memory.write m a v
    else if b = a then (if v = 0#8 then m else (a, v) :: m)
    else (if v = 0#8 then (b, w) :: m else (a, v) :: (b, w) :: m)

/-- `MemRead(a, n) = Σ BUF[a+t]·2^(8t)`, little-endian (20_memory.md R53). -/
def Memory.readLE (m : Memory) (a : Nat) : Nat → Nat
  | 0 => 0
  | n + 1 => (m.read a).toNat + 2^8 * Memory.readLE m (a + 1) n

/-- `MemWrite(a, n, v)`: `BUF[a+t] <- v[8t+7 : 8t]` for `t = 0 .. n-1` (20_memory.md R54). -/
def Memory.writeLE (m : Memory) (a : Nat) : Nat → Nat → Memory
  | 0, _ => m
  | n + 1, v => Memory.writeLE (m.write a (BitVec.ofNat 8 v)) (a + 1) n (v / 2^8)

/-- The integer in a slot, `MemRead(32·slot, 32)` (20_memory.md R51, R53). -/
def State.readSlot (s : State) (slot : Slot) : Nat := s.buf.readLE (slotAddr slot) Config.NBYTES

/-- `MemWrite(32·slot, 32, v)` (20_memory.md R51, R54). -/
def State.writeSlot (s : State) (slot : Slot) (v : Nat) : State :=
  { s with buf := s.buf.writeLE (slotAddr slot) Config.NBYTES v }

/-- `kbit(i)`: bit `i` of the scalar in slot 0, `(BUF[i div 8] div 2^(i mod 8)) mod 2` (43_ladder.md R161). -/
def State.kbit (s : State) (i : Nat) : Bool := (s.buf.read (i / 8)).toNat / 2^(i % 8) % 2 == 1

/-- Byte `n` of a register value, `v[8n+7 : 8n]` (20_memory.md R56). -/
def elemByte (v : Elem) (n : Nat) : Byte := v.extractLsb' (8 * n) 8

/-- `v` with byte `n` replaced, the other 248 bits unchanged (20_memory.md R58). -/
def setElemByte (v : Elem) (n : Nat) (b : Byte) : Elem :=
  (v &&& ~~~((0xFF : Elem) <<< (8 * n))) ||| (b.zeroExtend 256 <<< (8 * n))

/-- Byte `k` of the register window: byte `k mod 32` of `f[k div 32]` (20_memory.md R56). -/
def State.windowByte (s : State) (k : Nat) : Byte := elemByte (s.reg (Fin.ofNat 16 (k / 32))) (k % 32)

/-- Replace byte `k` of the register window (20_memory.md R58). -/
def State.setWindowByte (s : State) (k : Nat) (b : Byte) : State :=
  s.setReg (Fin.ofNat 16 (k / 32)) (setElemByte (s.reg (Fin.ofNat 16 (k / 32))) (k % 32) b)

/-- All state of the unit to its reset value, whatever it was (70_reset_and_hazards.md R230); the turns to come and the
answers given are outside the unit and stay (log 3). -/
def resetUnit (s : State) : State := { State.reset with schedule := s.schedule, answers := s.answers }

/-- The next turn, taken off the schedule; with nothing scheduled the turn is the unit's, so that a BUSY unit completes
(70_reset_and_hazards.md R241; log 1). -/
def takeTurn (s : State) : Turn × State :=
  match s.schedule with
  | [] => (.unit, s)
  | t :: rest => (t, { s with schedule := rest })

end Sys2Proof.Machine
end

