-- ==== Sys2Proof/Machine/FieldArith.lean ====
section
/-! DEFINITION. The pure field functions on 256-bit values (40_field_arith.md R112 to R118; 45_codec_toplevel.md R192),
computed on unbounded naturals (R119) and narrowed once at the end. -/

namespace Sys2Proof.Machine

/-- `fold(x) = (x mod 2^256) + 38·(x div 2^256)` (40_field_arith.md R112). -/
def fold (x : Nat) : Nat := x % 2^256 + Config.C256 * (x / 2^256)

/-- `v` with limb 0 replaced by `(limb(v,0) + t) mod 2^64` (40_field_arith.md R113). -/
def lo0add (v t : Nat) : Nat := v / 2^64 * 2^64 + (v % 2^64 + t) % 2^64

/-- `v` with limb 0 replaced by `(limb(v,0) - t) mod 2^64`, for `t ≤ 2^64` (40_field_arith.md R113). -/
def lo0sub (v t : Nat) : Nat := v / 2^64 * 2^64 + (v % 2^64 + 2^64 - t) % 2^64

/-- `fadd` on integers below 2^256 (40_field_arith.md R114). -/
def faddNat (a b : Nat) : Nat :=
  let s := a + b
  let c1 := s / 2^256
  let u := s % 2^256 + Config.C256 * c1
  let c2 := u / 2^256
  lo0add (u % 2^256) (Config.C256 * c2)

/-- `fsub` on integers below 2^256 (40_field_arith.md R115). -/
def fsubNat (a b : Nat) : Nat :=
  let b1 := if a < b then 1 else 0
  let d := (a + 2^256 - b) % 2^256
  let b2 := if d < Config.C256 * b1 then 1 else 0
  let e := (d + 2^256 - Config.C256 * b1) % 2^256
  lo0sub e (Config.C256 * b2)

/-- `fmul` on integers below 2^256: the exact product and three folds (40_field_arith.md R116). -/
def fmulNat (a b : Nat) : Nat :=
  let t := a * b
  let v := t % 2^256 + Config.C256 * (t / 2^256)
  let w := v % 2^256 + Config.C256 * (v / 2^256)
  let c := w / 2^256
  lo0add (w % 2^256) (Config.C256 * c)

/-- `fmuls` on an integer below 2^256: the constant is hard-wired (40_field_arith.md R118). -/
def fmulsNat (a : Nat) : Nat :=
  let t := a * Config.A24
  let h := t / 2^256
  let w := t % 2^256 + Config.C256 * h
  let c := w / 2^256
  lo0add (w % 2^256) (Config.C256 * c)

/-- `fadd(a, b)` (40_field_arith.md R114). -/
def fadd (a b : Elem) : Elem := BitVec.ofNat 256 (faddNat a.toNat b.toNat)

/-- `fsub(a, b)` (40_field_arith.md R115). -/
def fsub (a b : Elem) : Elem := BitVec.ofNat 256 (fsubNat a.toNat b.toNat)

/-- `fmul(a, b)` (40_field_arith.md R116). -/
def fmul (a b : Elem) : Elem := BitVec.ofNat 256 (fmulNat a.toNat b.toNat)

/-- `fsqr(a) = fmul(a, a)`, bit for bit (40_field_arith.md R117). -/
def fsqr (a : Elem) : Elem := fmul a a

/-- `fmuls(a)` (40_field_arith.md R118). -/
def fmuls (a : Elem) : Elem := BitVec.ofNat 256 (fmulsNat a.toNat)

/-- The strict reduction, in the five lines of 45_codec_toplevel.md R192. -/
def canon (v : Nat) : Nat :=
  let t1 := v / 2^255
  let v1 := v % 2^255 + Config.C255 * t1
  let t2 := v1 / 2^255
  let v2 := v1 % 2^255 + Config.C255 * t2
  if Config.P ≤ v2 then v2 - Config.P else v2

/-- The conditional exchange in its mask form (41_cswap.md R142). -/
def cswap (s : Bool) (x y : Elem) : Elem × Elem :=
  let m : Elem := 0 - (if s then 1 else 0)
  let t := m &&& (x ^^^ y)
  (x ^^^ t, y ^^^ t)

end Sys2Proof.Machine
end

