-- ==== Sys2Proof/Machine/Codec.lean ====
section
/-! DEFINITION. Loads and stores FDEC, FLDR, FENC, FSTR, and WIPE, NOP (45_codec_toplevel.md R190 to R194, R199, R200). -/

namespace Sys2Proof.Machine

/-- `f[d] <- MemRead(32·slot, 32) mod 2^255` (45_codec_toplevel.md R190). -/
def doFdec (d : RegIdx) (slot : Slot) (s : State) : State :=
  s.setReg d (BitVec.ofNat 256 (s.readSlot slot % 2^255))

/-- `f[d] <- MemRead(32·slot, 32)` (45_codec_toplevel.md R191). -/
def doFldr (d : RegIdx) (slot : Slot) (s : State) : State := s.setReg d (BitVec.ofNat 256 (s.readSlot slot))

/-- `MemWrite(32·slot, 32, canon(f[r]))` (45_codec_toplevel.md R193). -/
def doFenc (slot : Slot) (r : RegIdx) (s : State) : State := s.writeSlot slot (canon (s.reg r).toNat)

/-- `MemWrite(32·slot, 32, f[r])` (45_codec_toplevel.md R194). -/
def doFstr (slot : Slot) (r : RegIdx) (s : State) : State := s.writeSlot slot (s.reg r).toNat

/-- `f[i] <- 0` for every register and `BUF[a] <- 0` for every byte (45_codec_toplevel.md R199). -/
def doWipe (s : State) : State := { s with f := Vector.replicate 16 0#256, buf := [] }

/-- FDEC (45_codec_toplevel.md R190). -/
def execFdec (d : RegIdx) (slot : Slot) (s : State) : Result := .next (doFdec d slot s)

/-- FLDR (45_codec_toplevel.md R191). -/
def execFldr (d : RegIdx) (slot : Slot) (s : State) : Result := .next (doFldr d slot s)

/-- FENC (45_codec_toplevel.md R193). -/
def execFenc (slot : Slot) (r : RegIdx) (s : State) : Result := .next (doFenc slot r s)

/-- FSTR (45_codec_toplevel.md R194). -/
def execFstr (slot : Slot) (r : RegIdx) (s : State) : Result := .next (doFstr slot r s)

/-- WIPE: the flags ILL and BACC stay (45_codec_toplevel.md R199). -/
def execWipe (s : State) : Result := .next (doWipe s)

/-- NOP: no effect of its own (45_codec_toplevel.md R200). -/
def execNop (s : State) : Result := .next s

end Sys2Proof.Machine
end

