-- ==== Sys2Proof/Machine/Field.lean ====
section
/-! DEFINITION. Field arithmetic commands: FADD, FSUB, FMUL, FSQR, FMULS, FMUL2, FSQR2, FMOV, FSETI (40_field_arith.md R120
to R128). `do…` is a command's effect on the state, shared by the command and the macro sequences; `exec…` its meaning. -/

namespace Sys2Proof.Machine

/-- `f[d] <- fadd(f[a], f[b])` (40_field_arith.md R120). -/
def doFadd (d a b : RegIdx) (s : State) : State := s.setReg d (fadd (s.reg a) (s.reg b))

/-- `f[d] <- fsub(f[a], f[b])` (40_field_arith.md R121). -/
def doFsub (d a b : RegIdx) (s : State) : State := s.setReg d (fsub (s.reg a) (s.reg b))

/-- `f[d] <- fmul(f[a], f[b])` (40_field_arith.md R122). -/
def doFmul (d a b : RegIdx) (s : State) : State := s.setReg d (fmul (s.reg a) (s.reg b))

/-- `f[d] <- fsqr(f[a])` (40_field_arith.md R123). -/
def doFsqr (d a : RegIdx) (s : State) : State := s.setReg d (fsqr (s.reg a))

/-- `f[d] <- fmuls(f[a])` (40_field_arith.md R124). -/
def doFmuls (d a : RegIdx) (s : State) : State := s.setReg d (fmuls (s.reg a))

/-- Two FMUL in order, on the even and on the odd registers (40_field_arith.md R125). -/
def doFmul2 (d a b : PairIdx) (s : State) : State :=
  doFmul (pairOdd d) (pairOdd a) (pairOdd b) (doFmul (pairEven d) (pairEven a) (pairEven b) s)

/-- Two FSQR in order, on the even and on the odd registers (40_field_arith.md R126). -/
def doFsqr2 (d a : PairIdx) (s : State) : State :=
  doFsqr (pairOdd d) (pairOdd a) (doFsqr (pairEven d) (pairEven a) s)

/-- `f[d] <- f[a]`, all 256 bits (40_field_arith.md R127). -/
def doFmov (d a : RegIdx) (s : State) : State := s.setReg d (s.reg a)

/-- `f[d] <- zext_256(imm12)` (40_field_arith.md R128). -/
def doFseti (d : RegIdx) (imm : BitVec 12) (s : State) : State := s.setReg d (zextImm imm)

/-- FADD (40_field_arith.md R120). -/
def execFadd (d a b : RegIdx) (s : State) : Result := .next (doFadd d a b s)

/-- FSUB (40_field_arith.md R121). -/
def execFsub (d a b : RegIdx) (s : State) : Result := .next (doFsub d a b s)

/-- FMUL (40_field_arith.md R122). -/
def execFmul (d a b : RegIdx) (s : State) : Result := .next (doFmul d a b s)

/-- FSQR (40_field_arith.md R123). -/
def execFsqr (d a : RegIdx) (s : State) : Result := .next (doFsqr d a s)

/-- FMULS (40_field_arith.md R124). -/
def execFmuls (d a : RegIdx) (s : State) : Result := .next (doFmuls d a s)

/-- FMUL2 (40_field_arith.md R125). -/
def execFmul2 (d a b : PairIdx) (s : State) : Result := .next (doFmul2 d a b s)

/-- FSQR2 (40_field_arith.md R126). -/
def execFsqr2 (d a : PairIdx) (s : State) : Result := .next (doFsqr2 d a s)

/-- FMOV (40_field_arith.md R127). -/
def execFmov (d a : RegIdx) (s : State) : Result := .next (doFmov d a s)

/-- FSETI (40_field_arith.md R128). -/
def execFseti (d : RegIdx) (imm : BitVec 12) (s : State) : Result := .next (doFseti d imm s)

end Sys2Proof.Machine
end

