-- ==== Sys2Proof/Machine/Swap.lean ====
section
/-! DEFINITION. The conditional swap commands CSWAP and CSWAP2 (41_cswap.md R141 to R143). -/

namespace Sys2Proof.Machine

/-- `(f[a], f[b]) <- cswap(sel, f[a], f[b])`: both read, both written, whatever `sel` is (41_cswap.md R140, R142). -/
def doCswap (a b : RegIdx) (sel : Bool) (s : State) : State :=
  let r := cswap sel (s.reg a) (s.reg b)
  (s.setReg a r.1).setReg b r.2

/-- The swap of two pairs, one selector for both halves (41_cswap.md R143). -/
def doCswap2 (a b : PairIdx) (sel : Bool) (s : State) : State :=
  doCswap (pairOdd a) (pairOdd b) sel (doCswap (pairEven a) (pairEven b) sel s)

/-- CSWAP (41_cswap.md R142). -/
def execCswap (a b : RegIdx) (sel : Bool) (s : State) : Result := .next (doCswap a b sel s)

/-- CSWAP2 (41_cswap.md R143). -/
def execCswap2 (a b : PairIdx) (sel : Bool) (s : State) : Result := .next (doCswap2 a b sel s)

end Sys2Proof.Machine
end

