-- ==== Sys2Proof/Machine/Micro.lean ====
section
/-! DEFINITION. The lines of which the macro commands are sequences (00_scope.md R15), how a sequence runs, and its
operation trace (70_reset_and_hazards.md R240). -/

namespace Sys2Proof.Machine

/-- A line of a micro-sequence: a primitive command, or an action of the ladder's sequencer (43_ladder.md R162). -/
inductive Micro
  | fadd (d a b : RegIdx)
  | fsub (d a b : RegIdx)
  | fmul (d a b : RegIdx)
  | fsqr (d a : RegIdx)
  | fmuls (d a : RegIdx)
  | fmul2 (d a b : PairIdx)
  | fsqr2 (d a : PairIdx)
  | cswap (a b : RegIdx) (s : Bool)
  | cswap2 (a b : PairIdx) (s : Bool)
  | fmov (d a : RegIdx)
  | fseti (d : RegIdx) (imm : BitVec 12)
  | fdec (d : RegIdx) (slot : Slot)
  | fldr (d : RegIdx) (slot : Slot)
  | fenc (slot : Slot) (r : RegIdx)
  | fstr (slot : Slot) (r : RegIdx)
  | wipe
  /-- `T <- 0; i <- 254`. -/
  | ladderStart
  /-- `s <- T xor kbit(i); CSWAP2 f2, f4, s`. -/
  | ladderSwap
  /-- `T <- kbit(i)`, and on to the next lower `i`. -/
  | ladderNext
  /-- `CSWAP2 f2, f4, T`. -/
  | ladderUnswap
  /-- `T` and `i` cease to exist (43_ladder.md R166): both back to their reset value (log 4). -/
  | ladderEnd
  deriving DecidableEq, Repr

/-- `T <- 0; i <- 254` (43_ladder.md R162; 10_state.md R36). -/
def doLadderStart (s : State) : State := { s with seqT := false, seqI := 254#8 }

/-- `s <- T xor kbit(i); CSWAP2 f2, f4, s` (43_ladder.md R164). -/
def doLadderSwap (s : State) : State := doCswap2 1 2 (s.seqT ^^ s.kbit s.seqI.toNat) s

/-- `T <- kbit(i)`, then `i` goes down by one (43_ladder.md R164). -/
def doLadderNext (s : State) : State := { s with seqT := s.kbit s.seqI.toNat, seqI := s.seqI - 1#8 }

/-- `CSWAP2 f2, f4, T` (43_ladder.md R165). -/
def doLadderUnswap (s : State) : State := doCswap2 1 2 s.seqT s

/-- `T` and `i` back to their reset value (43_ladder.md R166; 10_state.md R38; log 4). -/
def doLadderEnd (s : State) : State := { s with seqT := false, seqI := 0#8 }

/-- The effect of one line. -/
def Micro.run : Micro → State → State
  | .fadd d a b, s => doFadd d a b s
  | .fsub d a b, s => doFsub d a b s
  | .fmul d a b, s => doFmul d a b s
  | .fsqr d a, s => doFsqr d a s
  | .fmuls d a, s => doFmuls d a s
  | .fmul2 d a b, s => doFmul2 d a b s
  | .fsqr2 d a, s => doFsqr2 d a s
  | .cswap a b sel, s => doCswap a b sel s
  | .cswap2 a b sel, s => doCswap2 a b sel s
  | .fmov d a, s => doFmov d a s
  | .fseti d imm, s => doFseti d imm s
  | .fdec d slot, s => doFdec d slot s
  | .fldr d slot, s => doFldr d slot s
  | .fenc slot r, s => doFenc slot r s
  | .fstr slot r, s => doFstr slot r s
  | .wipe, s => doWipe s
  | .ladderStart, s => doLadderStart s
  | .ladderSwap, s => doLadderSwap s
  | .ladderNext, s => doLadderNext s
  | .ladderUnswap, s => doLadderUnswap s
  | .ladderEnd, s => doLadderEnd s

/-- The lines in the order written, each seeing the writes of the lines before it (70_reset_and_hazards.md R245). -/
def runMicro (ms : List Micro) (s : State) : State := ms.foldl (fun s m => m.run s) s

/-- The names of the operations a trace lists (70_reset_and_hazards.md R240; 00_scope.md R15). -/
inductive TraceOp
  | fadd | fsub | fmul | fsqr | fmuls | fmov | fseti | cswap | cswap2 | fdec | fldr | fenc | fstr | wipe
  deriving DecidableEq, Repr

/-- The trace entries of one line: FMUL2 two `fmul`, FSQR2 two `fsqr`, CSWAP2 one `cswap2` for either selector; the
sequencer's own actions none (70_reset_and_hazards.md R240). -/
def Micro.trace : Micro → List TraceOp
  | .fadd _ _ _ => [.fadd]
  | .fsub _ _ _ => [.fsub]
  | .fmul _ _ _ => [.fmul]
  | .fsqr _ _ => [.fsqr]
  | .fmuls _ _ => [.fmuls]
  | .fmul2 _ _ _ => [.fmul, .fmul]
  | .fsqr2 _ _ => [.fsqr, .fsqr]
  | .cswap _ _ _ => [.cswap]
  | .cswap2 _ _ _ => [.cswap2]
  | .fmov _ _ => [.fmov]
  | .fseti _ _ => [.fseti]
  | .fdec _ _ => [.fdec]
  | .fldr _ _ => [.fldr]
  | .fenc _ _ => [.fenc]
  | .fstr _ _ => [.fstr]
  | .wipe => [.wipe]
  | .ladderStart => []
  | .ladderSwap => [.cswap2]
  | .ladderNext => []
  | .ladderUnswap => [.cswap2]
  | .ladderEnd => []

end Sys2Proof.Machine
end

