-- ==== Sys2Proof/Machine/Inversion.lean ====
section
/-! DEFINITION. The field inversion command FINV (44_inversion.md R180 to R186). -/

namespace Sys2Proof.Machine

/-- `SQN t, s, n`: `FSQR t, s`, then `n - 1` times `FSQR t, t` (44_inversion.md R182). -/
def sqn (t s : RegIdx) (n : Nat) : List Micro := .fsqr t s :: List.replicate (n - 1) (.fsqr t t)

/-- The chain of 22 lines, for source `x` and destination `o`; a = f6, b = f7, c = f8, t0 = f9 (44_inversion.md R182). -/
def finvLines (o x : RegIdx) : List Micro :=
  [sqn 6 x 1,
   sqn 9 6 2,
   [.fmul 7 9 x],
   [.fmul 6 7 6],
   sqn 9 6 1,
   [.fmul 7 9 7],
   sqn 9 7 5,
   [.fmul 7 9 7],
   sqn 9 7 10,
   [.fmul 8 9 7],
   sqn 9 8 20,
   [.fmul 9 9 8],
   sqn 9 9 10,
   [.fmul 7 9 7],
   sqn 9 7 50,
   [.fmul 8 9 7],
   sqn 9 8 100,
   [.fmul 9 9 8],
   sqn 9 9 50,
   [.fmul 9 9 7],
   sqn 9 9 5,
   [.fmul o 9 6]].flatten

/-- FINV (44_inversion.md R181). A source in f6 .. f9 is refused at issue (R184) and does not reach this. -/
def execFinv (d a : RegIdx) (s : State) : Result := .next (runMicro (finvLines d a) s)

end Sys2Proof.Machine
end

