-- ==== Sys2Proof/Machine/Point.lean ====
section
/-! DEFINITION. The projective point commands PADBL and PDBL (42_point_ops.md R150 to R154). -/

namespace Sys2Proof.Machine

/-- The 15 lines of PADBL (42_point_ops.md R151). A pair operand is the number of the pair: `f8` is pair 4, `f6` pair 3,
`f4` pair 2, `f2` pair 1. -/
def padblLines : List Micro :=
  [.fadd 6 2 3,
   .fsub 7 2 3,
   .fadd 9 4 5,
   .fsub 8 4 5,
   .fmul2 4 4 3,
   .fadd 4 8 9,
   .fsub 5 8 9,
   .fsqr2 4 3,
   .fsqr2 2 2,
   .fmov 6 9,
   .fsub 9 8 9,
   .fmuls 7 9,
   .fadd 7 7 8,
   .fmul2 1 4 3,
   .fmul 5 5 0]

/-- The 8 lines of PDBL (42_point_ops.md R153). -/
def pdblLines : List Micro :=
  [.fadd 6 2 3,
   .fsub 7 2 3,
   .fsqr2 4 3,
   .fmov 6 9,
   .fsub 9 8 9,
   .fmuls 7 9,
   .fadd 7 7 8,
   .fmul2 1 4 3]

/-- PADBL (42_point_ops.md R151). -/
def execPadbl (s : State) : Result := .next (runMicro padblLines s)

/-- PDBL (42_point_ops.md R153). -/
def execPdbl (s : State) : Result := .next (runMicro pdblLines s)

end Sys2Proof.Machine
end

