-- ==== Sys2Proof/Machine/Ladder.lean ====
section
/-! DEFINITION. The Montgomery-ladder command LADDER (43_ladder.md R160 to R166). -/

namespace Sys2Proof.Machine

/-- The initial state: p0 = (1, 0), p1 = (X1, 1), T = 0, i = 254 (43_ladder.md R162, R163). -/
def ladderInit : List Micro := [.fseti 2 1, .fseti 3 0, .fmov 4 0, .fseti 5 1, .ladderStart]

/-- One iteration: swap by `T xor kbit(i)`, PADBL, `T <- kbit(i)` (43_ladder.md R164). -/
def ladderIteration : List Micro := [.ladderSwap] ++ padblLines ++ [.ladderNext]

/-- `n` iterations, one after the other. -/
def ladderLoop : Nat → List Micro
  | 0 => []
  | n + 1 => ladderIteration ++ ladderLoop n

/-- After the loop: un-swap with the last bit, three doublings (43_ladder.md R165). -/
def ladderTail : List Micro := [.ladderUnswap] ++ pdblLines ++ pdblLines ++ pdblLines ++ [.ladderEnd]

/-- LADDER's lines: 252 iterations for `i = 254 downto 3` between the initial state and the tail (43_ladder.md R162). -/
def ladderLines : List Micro := ladderInit ++ ladderLoop Config.NSTEP ++ ladderTail

/-- LADDER (43_ladder.md R162). -/
def execLadder (s : State) : Result := .next (runMicro ladderLines s)

end Sys2Proof.Machine
end

