-- ==== Sys2Proof/Machine/TopLevel.lean ====
section
/-! DEFINITION. The command X25519 (45_codec_toplevel.md R196 to R198), and every command as a sequence of lines, from which
its operation trace is read (70_reset_and_hazards.md R240). -/

namespace Sys2Proof.Machine

/-- The point encoding: `FINV f1, f3; FMUL f1, f2, f1; FENC #2, f1` (45_codec_toplevel.md R197). -/
def encodePointLines : List Micro := finvLines 1 3 ++ [.fmul 1 2 1, .fenc 2 1]

/-- Line 6 of X25519: `f0 .. f9 <- 0` (45_codec_toplevel.md R198). -/
def clearWorkLines : List Micro :=
  [.fseti 0 0, .fseti 1 0, .fseti 2 0, .fseti 3 0, .fseti 4 0,
   .fseti 5 0, .fseti 6 0, .fseti 7 0, .fseti 8 0, .fseti 9 0]

/-- X25519's lines: decode, ladder, encode, clear (45_codec_toplevel.md R198). -/
def x25519Lines : List Micro := [.fdec 0 1] ++ ladderLines ++ encodePointLines ++ clearWorkLines

/-- X25519 (45_codec_toplevel.md R198). -/
def execX25519 (s : State) : Result := .next (runMicro x25519Lines s)

/-- Each command as the sequence of lines it performs (70_reset_and_hazards.md R240); it depends on the command alone. -/
def linesOf : Instr → List Micro
  | .nop => []
  | .fadd d a b => [.fadd d a b]
  | .fsub d a b => [.fsub d a b]
  | .fmul d a b => [.fmul d a b]
  | .fsqr d a => [.fsqr d a]
  | .fmuls d a => [.fmuls d a]
  | .fmul2 d a b => [.fmul2 d a b]
  | .fsqr2 d a => [.fsqr2 d a]
  | .cswap a b s => [.cswap a b s]
  | .cswap2 a b s => [.cswap2 a b s]
  | .fmov d a => [.fmov d a]
  | .fseti d imm => [.fseti d imm]
  | .padbl => padblLines
  | .pdbl => pdblLines
  | .finv d a => finvLines d a
  | .ladder => ladderLines
  | .x25519 => x25519Lines
  | .fdec d slot => [.fdec d slot]
  | .fldr d slot => [.fldr d slot]
  | .fenc slot r => [.fenc slot r]
  | .fstr slot r => [.fstr slot r]
  | .wipe => [.wipe]

/-- The operation trace of a command (70_reset_and_hazards.md R240). -/
def trace (i : Instr) : List TraceOp := (linesOf i).flatMap Micro.trace

end Sys2Proof.Machine
end

