-- ==== Sys2Proof/Machine/Dispatch.lean ====
section
/-! DEFINITION. The dispatch: one arm per constructor of Instr. -/

namespace Sys2Proof.Machine

/-- `exec` of 10_state.md R33: a command's whole effect on `f` and BUF. -/
def exec (i : Instr) (s : State) : Host.Outcome State Fault Refusal :=
  match i with
  | .nop => Sys2Proof.Machine.execNop s
  | .fadd d a b => Sys2Proof.Machine.execFadd d a b s
  | .fsub d a b => Sys2Proof.Machine.execFsub d a b s
  | .fmul d a b => Sys2Proof.Machine.execFmul d a b s
  | .fsqr d a => Sys2Proof.Machine.execFsqr d a s
  | .fmuls d a => Sys2Proof.Machine.execFmuls d a s
  | .fmul2 d a b => Sys2Proof.Machine.execFmul2 d a b s
  | .fsqr2 d a => Sys2Proof.Machine.execFsqr2 d a s
  | .cswap a b sel => Sys2Proof.Machine.execCswap a b sel s
  | .cswap2 a b sel => Sys2Proof.Machine.execCswap2 a b sel s
  | .fmov d a => Sys2Proof.Machine.execFmov d a s
  | .fseti d imm => Sys2Proof.Machine.execFseti d imm s
  | .padbl => Sys2Proof.Machine.execPadbl s
  | .pdbl => Sys2Proof.Machine.execPdbl s
  | .finv d a => Sys2Proof.Machine.execFinv d a s
  | .ladder => Sys2Proof.Machine.execLadder s
  | .x25519 => Sys2Proof.Machine.execX25519 s
  | .fdec d slot => Sys2Proof.Machine.execFdec d slot s
  | .fldr d slot => Sys2Proof.Machine.execFldr d slot s
  | .fenc slot r => Sys2Proof.Machine.execFenc slot r s
  | .fstr slot r => Sys2Proof.Machine.execFstr slot r s
  | .wipe => Sys2Proof.Machine.execWipe s

end Sys2Proof.Machine
end

