-- ==== Sys2Proof/WellFormed.lean ====
section
/-! DEFINITION. Which terms of the syntax are commands. Register, pair, slot, selector and immediate ranges are in the types;
the one further check is FINV's source (30_encoding.md R100, R101 item 4). -/

namespace Sys2Proof

/-- `f6 .. f9`, the temporaries of the macro commands (10_state.md R23; 44_inversion.md R184). -/
def isTemporary (r : RegIdx) : Bool := 6 ≤ r.val && r.val ≤ 9

/-- The check of a command term (30_encoding.md R100). -/
def Instr.wellFormed : Instr → Bool
  | .nop => true
  | .fadd _ _ _ => true
  | .fsub _ _ _ => true
  | .fmul _ _ _ => true
  | .fsqr _ _ => true
  | .fmuls _ _ => true
  | .fmul2 _ _ _ => true
  | .fsqr2 _ _ => true
  | .cswap _ _ _ => true
  | .cswap2 _ _ _ => true
  | .fmov _ _ => true
  | .fseti _ _ => true
  | .padbl => true
  | .pdbl => true
  | .finv _ a => !isTemporary a
  | .ladder => true
  | .x25519 => true
  | .fdec _ _ => true
  | .fldr _ _ => true
  | .fenc _ _ => true
  | .fstr _ _ => true
  | .wipe => true

/-- `i` is a command (decidable: a Bool equation). -/
abbrev Instr.WellFormed (i : Instr) : Prop := i.wellFormed = true

end Sys2Proof
end

