-- ==== Sys2Proof/Decode.lean ====
section
/-! DEFINITION. The decoder of a command word (30_encoding.md R80 to R84, R100 to R104), total on all 2^32 words and
rejecting by name, and the encoder (R85). -/

namespace Sys2Proof

/-- The rows of the opcode map, by name (30_encoding.md R84). -/
inductive Op
  | nop | fadd | fsub | fmul | fsqr | fmuls | fmul2 | fsqr2 | cswap | cswap2 | fmov | fseti
  | padbl | pdbl | finv | ladder | x25519 | fdec | fldr | fenc | fstr | wipe
  deriving DecidableEq, Repr

/-- Why a word spells no command (30_encoding.md R101, items 1 to 4). -/
inductive IllegalWord
  /-- Item 1: `w[31:24]` is none of the 22 opcodes. -/
  | reservedOpcode
  /-- Item 2: a must-be-zero bit (R102) is 1. -/
  | mustBeZero
  /-- Item 3: an odd register in a pair field. -/
  | oddPair
  /-- Item 4: FINV with a source in `f6 .. f9`. -/
  | finvTemporary
  deriving DecidableEq, Repr

/-- One row of the opcode map: a word `w` fits it when `w & mask = pattern` (30_encoding.md R84). -/
structure Row where
  op : Op
  mask : Word
  pattern : Word
  deriving DecidableEq, Repr

/-- The opcode map, rows NOP to FSETI (30_encoding.md R84). -/
def opcodeTablePrimitive : List Row :=
  [⟨.nop,    0xFFFFFFFF, 0x00000000⟩,
   ⟨.fadd,   0xFF000FFF, 0x01000000⟩,
   ⟨.fsub,   0xFF000FFF, 0x02000000⟩,
   ⟨.fmul,   0xFF000FFF, 0x03000000⟩,
   ⟨.fsqr,   0xFF00FFFF, 0x04000000⟩,
   ⟨.fmuls,  0xFF00FFFF, 0x05000000⟩,
   ⟨.fmul2,  0xFF111FFF, 0x06000000⟩,
   ⟨.fsqr2,  0xFF11FFFF, 0x07000000⟩,
   ⟨.cswap,  0xFFF00FFE, 0x08000000⟩,
   ⟨.cswap2, 0xFFF11FFE, 0x09000000⟩,
   ⟨.fmov,   0xFF00FFFF, 0x0A000000⟩,
   ⟨.fseti,  0xFF0FF000, 0x0B000000⟩]

/-- The opcode map, rows PADBL to WIPE (30_encoding.md R84). -/
def opcodeTableMacro : List Row :=
  [⟨.padbl,  0xFFFFFFFF, 0x10000000⟩,
   ⟨.pdbl,   0xFFFFFFFF, 0x11000000⟩,
   ⟨.finv,   0xFF00FFFF, 0x12000000⟩,
   ⟨.ladder, 0xFFFFFFFF, 0x13000000⟩,
   ⟨.x25519, 0xFFFFFFFF, 0x14000000⟩,
   ⟨.fdec,   0xFF0FFFFC, 0x18000000⟩,
   ⟨.fldr,   0xFF0FFFFC, 0x19000000⟩,
   ⟨.fenc,   0xFF0FFFFC, 0x1A000000⟩,
   ⟨.fstr,   0xFF0FFFFC, 0x1B000000⟩,
   ⟨.wipe,   0xFFFFFFFF, 0x1F000000⟩]

/-- The opcode map, 22 rows (30_encoding.md R84). -/
def opcodeTable : List Row := opcodeTablePrimitive ++ opcodeTableMacro

/-- Field `op`, bits 31:24 (30_encoding.md R81). -/
def fieldOp (w : Word) : BitVec 8 := w.extractLsb' 24 8

/-- Field `d`, bits 23:20, as a register index (30_encoding.md R81, R83). -/
def fieldD (w : Word) : RegIdx := Fin.ofNat 16 (w.extractLsb' 20 4).toNat

/-- Field `a`, bits 19:16, as a register index (30_encoding.md R81, R83). -/
def fieldA (w : Word) : RegIdx := Fin.ofNat 16 (w.extractLsb' 16 4).toNat

/-- Field `b`, bits 15:12, as a register index (30_encoding.md R81, R83). -/
def fieldB (w : Word) : RegIdx := Fin.ofNat 16 (w.extractLsb' 12 4).toNat

/-- Field `d` as a pair: its bit 20 is 0 and bits 23:21 are the pair's number (30_encoding.md R82, R83). -/
def fieldPairD (w : Word) : PairIdx := Fin.ofNat 8 (w.extractLsb' 21 3).toNat

/-- Field `a` as a pair (30_encoding.md R82, R83). -/
def fieldPairA (w : Word) : PairIdx := Fin.ofNat 8 (w.extractLsb' 17 3).toNat

/-- Field `b` as a pair (30_encoding.md R82, R83). -/
def fieldPairB (w : Word) : PairIdx := Fin.ofNat 8 (w.extractLsb' 13 3).toNat

/-- FSETI's immediate, bits 11:0 (30_encoding.md R83). -/
def fieldImm12 (w : Word) : BitVec 12 := w.extractLsb' 0 12

/-- The swap selector, bit 0 (30_encoding.md R83). -/
def fieldSelector (w : Word) : Bool := w.getLsbD 0

/-- The slot number, bits 1:0 (30_encoding.md R83). -/
def fieldSlot (w : Word) : Slot := Fin.ofNat 4 (w.extractLsb' 0 2).toNat

/-- The bits of the row's mask that force a pair field to be even (30_encoding.md R101 item 3). -/
def Op.evenBits : Op → Word
  | .fmul2 => 0x00111000
  | .fsqr2 => 0x00110000
  | .cswap2 => 0x00011000
  | .nop | .fadd | .fsub | .fmul | .fsqr | .fmuls | .cswap | .fmov | .fseti
  | .padbl | .pdbl | .finv | .ladder | .x25519 | .fdec | .fldr | .fenc | .fstr | .wipe => 0

/-- The command a word of a row's form spells: the fields of the row's format (30_encoding.md R104, last step). -/
def Op.build (w : Word) : Op → Instr
  | .nop => .nop
  | .fadd => .fadd (fieldD w) (fieldA w) (fieldB w)
  | .fsub => .fsub (fieldD w) (fieldA w) (fieldB w)
  | .fmul => .fmul (fieldD w) (fieldA w) (fieldB w)
  | .fsqr => .fsqr (fieldD w) (fieldA w)
  | .fmuls => .fmuls (fieldD w) (fieldA w)
  | .fmul2 => .fmul2 (fieldPairD w) (fieldPairA w) (fieldPairB w)
  | .fsqr2 => .fsqr2 (fieldPairD w) (fieldPairA w)
  | .cswap => .cswap (fieldA w) (fieldB w) (fieldSelector w)
  | .cswap2 => .cswap2 (fieldPairA w) (fieldPairB w) (fieldSelector w)
  | .fmov => .fmov (fieldD w) (fieldA w)
  | .fseti => .fseti (fieldD w) (fieldImm12 w)
  | .padbl => .padbl
  | .pdbl => .pdbl
  | .finv => .finv (fieldD w) (fieldA w)
  | .ladder => .ladder
  | .x25519 => .x25519
  | .fdec => .fdec (fieldD w) (fieldSlot w)
  | .fldr => .fldr (fieldD w) (fieldSlot w)
  | .fenc => .fenc (fieldSlot w) (fieldD w)
  | .fstr => .fstr (fieldSlot w) (fieldD w)
  | .wipe => .wipe

/-- The row with a given opcode; at most one, because the opcodes differ (30_encoding.md R100). -/
def rowFor (code : BitVec 8) : Option Row := opcodeTable.find? fun r => fieldOp r.pattern == code

/-- The decoding algorithm (30_encoding.md R104): the row by opcode, the row's mask, FINV's source, the fields. -/
def decode (w : Word) : Except IllegalWord Instr :=
  match rowFor (fieldOp w) with
  | none => .error .reservedOpcode
  | some r =>
    if w &&& r.mask = r.pattern then
      if (r.op.build w).wellFormed then .ok (r.op.build w) else .error .finvTemporary
    else if w &&& (r.mask &&& ~~~r.op.evenBits) = r.pattern then .error .oddPair
    else .error .mustBeZero

/-- `legal(w)` (30_encoding.md R100): some row has `w & mask = match` and, if that row is FINV, `w[19:16]` is not 6 .. 9. -/
def legal (w : Word) : Bool :=
  opcodeTable.any fun r =>
    w &&& r.mask == r.pattern && !(r.op == .finv && isTemporary (fieldA w))

/-- The word with fields `op, d, a, b, imm` (30_encoding.md R81, R85). -/
def wordOf (op : BitVec 8) (d a b : BitVec 4) (imm : BitVec 12) : Word := op ++ d ++ a ++ b ++ imm

/-- A register index as a 4-bit field. -/
def regField (r : RegIdx) : BitVec 4 := BitVec.ofNat 4 r.val

/-- A pair as a 4-bit field: its even register, `2n` (10_state.md R22; 30_encoding.md R82). -/
def pairField (p : PairIdx) : BitVec 4 := BitVec.ofNat 4 (2 * p.val)

/-- A slot number in the 12-bit field. -/
def slotField (s : Slot) : BitVec 12 := BitVec.ofNat 12 s.val

/-- A swap selector in the 12-bit field. -/
def selectorField (s : Bool) : BitVec 12 := if s then 1 else 0

/-- The encoding function (30_encoding.md R85), unused fields 0. -/
def encode : Instr → Word
  | .nop => wordOf 0x00 0 0 0 0
  | .fadd d a b => wordOf 0x01 (regField d) (regField a) (regField b) 0
  | .fsub d a b => wordOf 0x02 (regField d) (regField a) (regField b) 0
  | .fmul d a b => wordOf 0x03 (regField d) (regField a) (regField b) 0
  | .fsqr d a => wordOf 0x04 (regField d) (regField a) 0 0
  | .fmuls d a => wordOf 0x05 (regField d) (regField a) 0 0
  | .fmul2 d a b => wordOf 0x06 (pairField d) (pairField a) (pairField b) 0
  | .fsqr2 d a => wordOf 0x07 (pairField d) (pairField a) 0 0
  | .cswap a b s => wordOf 0x08 0 (regField a) (regField b) (selectorField s)
  | .cswap2 a b s => wordOf 0x09 0 (pairField a) (pairField b) (selectorField s)
  | .fmov d a => wordOf 0x0A (regField d) (regField a) 0 0
  | .fseti d imm => wordOf 0x0B (regField d) 0 0 imm
  | .padbl => wordOf 0x10 0 0 0 0
  | .pdbl => wordOf 0x11 0 0 0 0
  | .finv d a => wordOf 0x12 (regField d) (regField a) 0 0
  | .ladder => wordOf 0x13 0 0 0 0
  | .x25519 => wordOf 0x14 0 0 0 0
  | .fdec d slot => wordOf 0x18 (regField d) 0 0 (slotField slot)
  | .fldr d slot => wordOf 0x19 (regField d) 0 0 (slotField slot)
  | .fenc slot r => wordOf 0x1A (regField r) 0 0 (slotField slot)
  | .fstr slot r => wordOf 0x1B (regField r) 0 0 (slotField slot)
  | .wipe => wordOf 0x1F 0 0 0 0

/-- The command the decoder reads from the table word `w` of `nbits` bits (a command is the one 32-bit word, R80; bits at
and above `nbits` are 0). -/
def decodeTableWord (nbits w : Nat) : Option Instr :=
  match decode (BitVec.ofNat 32 (w % 2^nbits)) with
  | .ok i => some i
  | .error _ => none

end Sys2Proof
end

