-- ==== Sys2Proof/Machine/HostPort.lean ====
section
/-! DEFINITION. The host port: the issue step and the host's reads and writes (10_state.md R29 to R32; 20_memory.md R56 to
R64; 60_exceptions.md R211 to R214). -/

namespace Sys2Proof.Machine

/-- The issue step: a host write of `w` to CMD, tested for BUSY first, then for legality (10_state.md R32;
60_exceptions.md R214). -/
def issue (w : Word) (s : State) : State :=
  if s.busy then raiseBusyAccess s
  else if legal w then acceptCommand w s
  else raiseIllegalCommand s

/-- The `n` bytes of the register window from byte `k`, little-endian (20_memory.md R58, R59). -/
def State.windowLE (s : State) (k : Nat) : Nat → Nat
  | 0 => 0
  | n + 1 => (s.windowByte k).toNat + 2^8 * s.windowLE (k + 1) n

/-- Write the low `n` bytes of `v` to the register window from byte `k`, little-endian (20_memory.md R58, R59). -/
def State.setWindowLE (s : State) (k : Nat) : Nat → Nat → State
  | 0, _ => s
  | n + 1, v => (s.setWindowByte k (BitVec.ofNat 8 v)).setWindowLE (k + 1) n (v / 2^8)

/-- The value a host read returns: STATUS at any time; a window's bytes while idle, 0 while BUSY; 0 from CMD and from
unmapped addresses (10_state.md R29, R30; 20_memory.md R57 to R62). -/
def readValue (addr : BitVec 10) (width : HostWidth) (s : State) : BitVec 64 :=
  match hostTarget addr width with
  | .cmd => 0
  | .status => (statusWord s).zeroExtend 64
  | .bufWindow a => if s.busy then 0 else BitVec.ofNat 64 (s.buf.readLE a width.bytes)
  | .regWindow k => if s.busy then 0 else BitVec.ofNat 64 (s.windowLE k width.bytes)
  | .unmapped => 0

/-- The effect of a host read on the unit: BACC when a window is read while BUSY, else none (20_memory.md R61, R62, R64;
60_exceptions.md R213; log 9). -/
def readEffect (addr : BitVec 10) (width : HostWidth) (s : State) : State :=
  match hostTarget addr width with
  | .cmd => s
  | .status => s
  | .bufWindow _ => if s.busy then raiseBusyAccess s else s
  | .regWindow _ => if s.busy then raiseBusyAccess s else s
  | .unmapped => s

/-- The effect of a host write (10_state.md R31, R32; 20_memory.md R57 to R62). -/
def writeEffect (addr : BitVec 10) (width : HostWidth) (value : BitVec 64) (s : State) : State :=
  match hostTarget addr width with
  | .cmd => issue (value.truncate 32) s
  | .status => clearFlags (value.truncate 32) s
  | .bufWindow a =>
    if s.busy then raiseBusyAccess s else { s with buf := s.buf.writeLE a width.bytes value.toNat }
  | .regWindow k => if s.busy then raiseBusyAccess s else s.setWindowLE k width.bytes value.toNat
  | .unmapped => s

/-- One access of the host; a read's value is added to the answers (log 3). -/
def hostAccess (a : HostAccess) (s : State) : State :=
  match a with
  | .read addr width =>
    { readEffect addr width s with answers := s.answers ++ [readValue addr width s] }
  | .write addr width value => writeEffect addr width value s

end Sys2Proof.Machine
end

