-- ==== Sys2Proof/Machine/Step.lean ====
section
/-! DEFINITION. One step of the machine: a host access, a reset, or the unit's completion step. -/

namespace Sys2Proof.Machine

/-- The completion step: the command CMDR spells, then `BUSY <- 0; DONE <- 1` (10_state.md R33). -/
def complete (s : State) : Host.Outcome State Fault Refusal :=
  match decode s.cmdr with
  | .error _ => .fault .cmdrSpellsNoCommand
  | .ok i =>
    match exec i s with
    | .next t => .next (markDone t)
    | .fault r => .fault r
    | .refused r => .refused r

/-- The unit's turn: the completion step, enabled exactly when BUSY = 1; an idle unit does nothing (10_state.md R33;
60_exceptions.md R223). -/
def unitTurn (s : State) : Host.Outcome State Fault Refusal := if s.busy then complete s else .next s

/-- One step: the next turn of the schedule (10_state.md R20; 20_memory.md R67; log 1). -/
def step (s : State) : Host.Outcome State Fault Refusal :=
  match takeTurn s with
  | (.host a, s) => .next (hostAccess a s)
  | (.reset, s) => .next (resetUnit s)
  | (.unit, s) => unitTurn s

/-- `s` with the command word `w` accepted into CMDR (the effect of an accepted issue, 10_state.md R32) and the unit's turn
next, so that the very next step completes exactly that command (log 8). -/
def State.withFetchWord (s : State) (nbits w : Nat) : State :=
  acceptCommand (BitVec.ofNat 32 (w % 2^nbits)) { s with schedule := .unit :: s.schedule }

end Sys2Proof.Machine
end

