-- ==== Sys2Proof/Safety.lean ====
section
/-! DEFINITION. What claims are stated in: the invariant of a run, which registers and bytes each command reads and writes
(10_state.md R24), the running of commands one after the other, and the curve whose points the point commands work on
(42_point_ops.md R155). -/

namespace Sys2Proof.Machine

/-- The invariant of a run: BUF in canonical form, CMDR legal (only legal words are accepted, 10_state.md R32), never BUSY
and DONE together (R30 to R33), and the ladder's sequencer registers at rest between steps (R36). -/
abbrev Inv (s : State) : Prop :=
  Memory.wf s.buf ∧ legal s.cmdr = true ∧ ¬(s.busy = true ∧ s.done = true) ∧ s.seqT = false ∧ s.seqI = 0#8

/-- `t` differs from `s` in `f`, BUF and the sequencer registers at most: what a completion changes beside BUSY and DONE
(10_state.md R33). -/
abbrev SameOutside (s t : State) : Prop :=
  t.cmdr = s.cmdr ∧ t.busy = s.busy ∧ t.done = s.done ∧ t.ill = s.ill ∧ t.bacc = s.bacc ∧
    t.schedule = s.schedule ∧ t.answers = s.answers

/-- The column "reads" of 10_state.md R24, registers. -/
def readsReg : Instr → RegIdx → Bool
  | .nop, _ => false
  | .fadd _ a b, r => r == a || r == b
  | .fsub _ a b, r => r == a || r == b
  | .fmul _ a b, r => r == a || r == b
  | .fsqr _ a, r => r == a
  | .fmuls _ a, r => r == a
  | .fmul2 _ a b, r => r == pairEven a || r == pairOdd a || r == pairEven b || r == pairOdd b
  | .fsqr2 _ a, r => r == pairEven a || r == pairOdd a
  | .cswap a b _, r => r == a || r == b
  | .cswap2 a b _, r => r == pairEven a || r == pairOdd a || r == pairEven b || r == pairOdd b
  | .fmov _ a, r => r == a
  | .fseti _ _, _ => false
  | .padbl, r => r == 0 || (2 ≤ r.val && r.val ≤ 5)
  | .pdbl, r => r == 2 || r == 3
  | .finv _ a, r => r == a
  | .ladder, r => r == 0
  | .x25519, _ => false
  | .fdec _ _, _ => false
  | .fldr _ _, _ => false
  | .fenc _ x, r => r == x
  | .fstr _ x, r => r == x
  | .wipe, _ => false

/-- The column "writes" of 10_state.md R24, registers. -/
def writesReg : Instr → RegIdx → Bool
  | .nop, _ => false
  | .fadd d _ _, r => r == d
  | .fsub d _ _, r => r == d
  | .fmul d _ _, r => r == d
  | .fsqr d _, r => r == d
  | .fmuls d _, r => r == d
  | .fmul2 d _ _, r => r == pairEven d || r == pairOdd d
  | .fsqr2 d _, r => r == pairEven d || r == pairOdd d
  | .cswap a b _, r => r == a || r == b
  | .cswap2 a b _, r => r == pairEven a || r == pairOdd a || r == pairEven b || r == pairOdd b
  | .fmov d _, r => r == d
  | .fseti d _, r => r == d
  | .padbl, r => 2 ≤ r.val && r.val ≤ 9
  | .pdbl, r => r == 2 || r == 3 || isTemporary r
  | .finv d _, r => r == d || isTemporary r
  | .ladder, r => 2 ≤ r.val && r.val ≤ 9
  | .x25519, r => r.val ≤ 9
  | .fdec d _, r => r == d
  | .fldr d _, r => r == d
  | .fenc _ _, _ => false
  | .fstr _ _, _ => false
  | .wipe, _ => true

/-- Byte address `a` lies in the slot. -/
def inSlot (slot : Slot) (a : Nat) : Bool := slotAddr slot ≤ a && a < slotAddr slot + Config.NBYTES

/-- The column "reads" of 10_state.md R24, bytes of BUF. -/
def readsByte : Instr → Nat → Bool
  | .ladder, a => inSlot 0 a
  | .x25519, a => inSlot 0 a || inSlot 1 a
  | .fdec _ slot, a => inSlot slot a
  | .fldr _ slot, a => inSlot slot a
  | .nop, _ | .fadd _ _ _, _ | .fsub _ _ _, _ | .fmul _ _ _, _ | .fsqr _ _, _ | .fmuls _ _, _ | .fmul2 _ _ _, _
  | .fsqr2 _ _, _ | .cswap _ _ _, _ | .cswap2 _ _ _, _ | .fmov _ _, _ | .fseti _ _, _ | .padbl, _ | .pdbl, _
  | .finv _ _, _ | .fenc _ _, _ | .fstr _ _, _ | .wipe, _ => false

/-- The column "writes" of 10_state.md R24, bytes of BUF. -/
def writesByte : Instr → Nat → Bool
  | .x25519, a => inSlot 2 a
  | .fenc slot _, a => inSlot slot a
  | .fstr slot _, a => inSlot slot a
  | .wipe, _ => true
  | .nop, _ | .fadd _ _ _, _ | .fsub _ _ _, _ | .fmul _ _ _, _ | .fsqr _ _, _ | .fmuls _ _, _ | .fmul2 _ _ _, _
  | .fsqr2 _ _, _ | .cswap _ _ _, _ | .cswap2 _ _ _, _ | .fmov _ _, _ | .fseti _ _, _ | .padbl, _ | .pdbl, _
  | .finv _ _, _ | .ladder, _ | .fdec _ _, _ | .fldr _ _, _ => false

/-- Commands one after the other, as a host that issues them one at a time sees them (60_exceptions.md R222). -/
def execAll : List Instr → State → Result
  | [], s => .next s
  | i :: is, s =>
    match exec i s with
    | .next t => execAll is t
    | .fault r => .fault r
    | .refused r => .refused r

/-- The Montgomery curve `y^2 = x^3 + A·x^2 + x` of 42_point_ops.md R150 with `B = 1`, where `A24 = (A-2)/4` (00_scope.md R8)
makes `A = 4·A24 + 2`. -/
def curve (K : Type) [Field K] : WeierstrassCurve.Affine K :=
  { a₁ := 0, a₂ := 4 * Config.A24 + 2, a₃ := 0, a₄ := 1, a₆ := 0 }

/-- `(X:Z)` represents the x-coordinate of the point (42_point_ops.md R155): `X / Z`; of the point at infinity `(X:0)` with
`X ≠ 0`. `(0:0)` represents no point. -/
def RepresentsX {K : Type} [Field K] (X Z : K) : (curve K).Point → Prop
  | .zero => X ≠ 0 ∧ Z = 0
  | .some x _ _ => Z ≠ 0 ∧ X = x * Z

/-- The field element that a register holds, in a field where P is 0 (00_scope.md R16). -/
def State.elem (K : Type) [Field K] (s : State) (r : RegIdx) : K := ((s.reg r).toNat : K)

end Sys2Proof.Machine
end

