-- ==== Sys2Proof/Certificates/Slice0/Obligations.lean ====
section
/-! DEFINITION. The statements for the provers, in the order of the spec's files. A statement about the model's own choice
says so and names the log entry. -/

open Sys2Proof Sys2Proof.Machine

namespace Sys2Proof.Claims

/-- `t` holds the register values `v`; every byte of BUF, every flag, CMDR, the sequencer registers and the model's own
fields are as in `s`. -/
def OnlyRegisters (s t : State) (v : RegIdx → Elem) : Prop :=
  (∀ r, t.reg r = v r) ∧ (∀ a, t.buf.read a = s.buf.read a) ∧ SameOutside s t ∧ t.seqT = s.seqT ∧ t.seqI = s.seqI

/-- A command that runs and writes registers only, giving them the values `v`. -/
def GivesRegisters (i : Instr) (s : State) (v : RegIdx → Elem) : Prop :=
  ∃ t, exec i s = .next t ∧ OnlyRegisters s t v

/-- The word with the fields `op, d, a, b, imm`, from bit 31 down (30_encoding.md R81), spells the command `i`. -/
def Spells (op : BitVec 8) (d a b : BitVec 4) (imm : BitVec 12) (i : Instr) : Prop :=
  decode (op ++ d ++ a ++ b ++ imm) = .ok i

/-- A register in its field. -/
def regBits (r : RegIdx) : BitVec 4 := BitVec.ofNat 4 r.val

/-- A pair in its field: the index of its even register (10_state.md R22). -/
def pairBits (p : PairIdx) : BitVec 4 := BitVec.ofNat 4 (2 * p.val)

/-- A slot number in the field `imm`. -/
def slotBits (slot : Slot) : BitVec 12 := BitVec.ofNat 12 slot.val

/-- A swap selector in the field `imm`. -/
def selBits (sel : Bool) : BitVec 12 := BitVec.ofNat 12 sel.toNat

/-- The bits of the fields that the format of an opcode does not use, or uses in part (30_encoding.md R81, R82): Z, R3 and P3,
R2 and P2, I, S and SP, M. The bits that force a pair field to be even are not among them. -/
def unusedBits (op : BitVec 8) : Word :=
  if op ∈ [0x00, 0x10, 0x11, 0x13, 0x14, 0x1F] then 0x00FFFFFF
  else if op ∈ [0x01, 0x02, 0x03, 0x06] then 0x00000FFF
  else if op ∈ [0x04, 0x05, 0x0A, 0x12, 0x07] then 0x0000FFFF
  else if op = 0x0B then 0x000FF000
  else if op ∈ [0x08, 0x09] then 0x00F00FFE
  else if op ∈ [0x18, 0x19, 0x1A, 0x1B] then 0x000FFFFC
  else 0

/-- Opcodes that are none of the 22 (30_encoding.md R101 item 1). -/
def reservedOpcode (op : Nat) : Prop :=
  0x0C ≤ op ∧ op ≤ 0x0F ∨ 0x15 ≤ op ∧ op ≤ 0x17 ∨ 0x1C ≤ op ∧ op ≤ 0x1E ∨ 0x20 ≤ op

/-- The 15 commands of 42_point_ops.md R151. -/
def padblCommands : List Instr :=
  [.fadd 6 2 3, .fsub 7 2 3, .fadd 9 4 5, .fsub 8 4 5, .fmul2 4 4 3, .fadd 4 8 9, .fsub 5 8 9, .fsqr2 4 3, .fsqr2 2 2,
   .fmov 6 9, .fsub 9 8 9, .fmuls 7 9, .fadd 7 7 8, .fmul2 1 4 3, .fmul 5 5 0]

/-- The 8 commands of 42_point_ops.md R153. -/
def pdblCommands : List Instr :=
  [.fadd 6 2 3, .fsub 7 2 3, .fsqr2 4 3, .fmov 6 9, .fsub 9 8 9, .fmuls 7 9, .fadd 7 7 8, .fmul2 1 4 3]

/-- `SQN t, s, n` as commands: `FSQR t, s` and `n - 1` times `FSQR t, t` (44_inversion.md R182). -/
def sqnCommands (t s : RegIdx) (n : Nat) : List Instr := .fsqr t s :: List.replicate (n - 1) (.fsqr t t)

/-- The chain of 44_inversion.md R182 as commands. -/
def finvCommands (o x : RegIdx) : List Instr :=
  [sqnCommands 6 x 1, sqnCommands 9 6 2, [.fmul 7 9 x], [.fmul 6 7 6], sqnCommands 9 6 1, [.fmul 7 9 7],
   sqnCommands 9 7 5, [.fmul 7 9 7], sqnCommands 9 7 10, [.fmul 8 9 7], sqnCommands 9 8 20, [.fmul 9 9 8],
   sqnCommands 9 9 10, [.fmul 7 9 7], sqnCommands 9 7 50, [.fmul 8 9 7], sqnCommands 9 8 100, [.fmul 9 9 8],
   sqnCommands 9 9 50, [.fmul 9 9 7], sqnCommands 9 9 5, [.fmul o 9 6]].flatten

/-- One ladder iteration as commands, for bit index `i` of the scalar bits `k`: the selector is the bit above xor this bit,
and this bit alone for the topmost index 254 (43_ladder.md R164, T = 0 at first). -/
def iterationCommands (k : Nat → Bool) (i : Nat) : List Instr :=
  .cswap2 1 2 ((i < 254 && k (i + 1)) ^^ k i) :: padblCommands

/-- LADDER as commands of a host that works the selectors out itself (43_ladder.md R162 to R165). -/
def ladderCommands (k : Nat → Bool) : List Instr :=
  List.flatten
    [[.fseti 2 1, .fseti 3 0, .fmov 4 0, .fseti 5 1],
     ((List.range 252).map fun n => iterationCommands k (254 - n)).flatten,
     [.cswap2 1 2 (k 3)], pdblCommands, pdblCommands, pdblCommands]

/-- The commands of 45_codec_toplevel.md R198. -/
def x25519Commands : List Instr :=
  [.fdec 0 1, .ladder, .finv 1 3, .fmul 1 2 1, .fenc 2 1,
   .fseti 0 0, .fseti 1 0, .fseti 2 0, .fseti 3 0, .fseti 4 0,
   .fseti 5 0, .fseti 6 0, .fseti 7 0, .fseti 8 0, .fseti 9 0]

/-- The integers modulo P, the reference the register arithmetic is compared with (40_field_arith.md R111). -/
abbrev FP := ZMod Config.P

/-- The field element a register value represents, `v mod P` (00_scope.md R16). -/
def residue (v : Elem) : FP := (v.toNat : FP)

/-- The doubling formulas of 42_point_ops.md R150, exact modulo P. -/
def modDouble (p : FP × FP) : FP × FP :=
  let aa := (p.1 + p.2)^2
  let bb := (p.1 - p.2)^2
  let e := aa - bb
  (aa * bb, e * (aa + 121665 * e))

/-- The differential addition formulas of 42_point_ops.md R150, exact modulo P. -/
def modAdd (x1 : FP) (p q : FP × FP) : FP × FP :=
  let da := (q.1 - q.2) * (p.1 + p.2)
  let cb := (q.1 + q.2) * (p.1 - p.2)
  ((da + cb)^2, x1 * (da - cb)^2)

/-- One step of the textbook ladder on the un-swapped pair: the bit says which of the two points is doubled. -/
def modStep (x1 : FP) (bit : Bool) (p : (FP × FP) × (FP × FP)) : (FP × FP) × (FP × FP) :=
  if bit then (modAdd x1 p.1 p.2, modDouble p.2) else (modDouble p.1, modAdd x1 p.1 p.2)

/-- The textbook ladder after `n` steps, for the bit indices 254, 253, .. (43_ladder.md R163, R164). -/
def modLadder (x1 : FP) (k : Nat → Bool) : Nat → (FP × FP) × (FP × FP)
  | 0 => ((1, 0), (x1, 1))
  | n + 1 => modStep x1 (k (254 - n)) (modLadder x1 k n)

/-- The result point of the textbook ladder: 252 steps, then three doublings of p0 (43_ladder.md R164, R165). -/
def modResult (x1 : FP) (k : Nat → Bool) : FP × FP := modDouble (modDouble (modDouble (modLadder x1 k 252).1))

/-- The operation trace of FINV in runs (96_test_vectors_more.md section 8; 44_inversion.md R182, R186). -/
def finvTrace : List TraceOp :=
  [List.replicate 3 .fsqr, List.replicate 2 .fmul, [.fsqr], [.fmul], List.replicate 5 .fsqr, [.fmul],
   List.replicate 10 .fsqr, [.fmul], List.replicate 20 .fsqr, [.fmul], List.replicate 10 .fsqr, [.fmul],
   List.replicate 50 .fsqr, [.fmul], List.replicate 100 .fsqr, [.fmul], List.replicate 50 .fsqr, [.fmul],
   List.replicate 5 .fsqr, [.fmul]].flatten

/-- The operation trace of PADBL (42_point_ops.md R157). -/
def padblTrace : List TraceOp :=
  [.fadd, .fsub, .fadd, .fsub, .fmul, .fmul, .fadd, .fsub, .fsqr, .fsqr, .fsqr, .fsqr, .fmov, .fsub, .fmuls, .fadd, .fmul,
   .fmul, .fmul]

/-- The operation trace of PDBL (42_point_ops.md R157). -/
def pdblTrace : List TraceOp := [.fadd, .fsub, .fsqr, .fsqr, .fmov, .fsub, .fmuls, .fadd, .fmul, .fmul]

/-- The operation trace of LADDER (43_ladder.md R169). -/
def ladderTrace : List TraceOp :=
  List.flatten
    [[.fseti, .fseti, .fmov, .fseti], (List.replicate 252 (.cswap2 :: padblTrace)).flatten, [.cswap2], pdblTrace,
     pdblTrace, pdblTrace]

/-- The operation trace of X25519 (45_codec_toplevel.md R204). -/
def x25519Trace : List TraceOp :=
  List.flatten [[.fdec], ladderTrace, finvTrace, [.fmul], [.fenc], List.replicate 10 .fseti]

end Sys2Proof.Claims

open Sys2Proof.Claims

/-! ### 10_state.md and 70_reset_and_hazards.md: state, reset, steps -/

/-- R38: the reset values of every piece of state. -/
def Obligations.ResetStateIsAllZero : Prop :=
  (∀ i, State.reset.reg i = 0) ∧ (∀ a, State.reset.buf.read a = 0) ∧ State.reset.cmdr = 0 ∧
  State.reset.busy = false ∧ State.reset.done = false ∧ State.reset.ill = false ∧ State.reset.bacc = false ∧
  State.reset.seqT = false ∧ State.reset.seqI = 0

/-- R230: the effect of the reset event, whatever the state before; a running command is abandoned without effect and DONE
stays 0. -/
def Obligations.ResetEventClearsEverything : Prop :=
  ∀ (s : State) (rest : List Turn), ∃ t, step { s with schedule := .reset :: rest } = .next t ∧
    (∀ i, t.reg i = 0) ∧ (∀ a, t.buf.read a = 0) ∧ t.cmdr = 0 ∧
    t.busy = false ∧ t.done = false ∧ t.ill = false ∧ t.bacc = false

/-- R32 and R211: a 32-bit write to CMD is the issue step; its three cases, each with nothing else changed. The low 32 bits
of the access's value are the word. -/
def Obligations.WriteToCmdIsTheIssueStep : Prop :=
  ∀ (s : State) (rest : List Turn) (value : BitVec 64),
    step { s with schedule := .host (.write 0x000 .w4 value) :: rest } = .next (
      if s.busy = true then { s with schedule := rest, bacc := true }
      else if legal (value.truncate 32) = true then
        { s with schedule := rest, cmdr := value.truncate 32, busy := true, done := false }
      else { s with schedule := rest, ill := true })

/-- R30, R29: at any time a 32-bit read of STATUS answers BUSY, DONE, ILL, BACC in bits 0 to 3 and zeros above, a read of CMD
answers 0, and neither changes anything. That the answer is kept in a list is the model's choice
(log 3), and that a read of CMD while BUSY sets no flag is the model's reading of R61 and R213 (log 9). -/
def Obligations.StatusReadsItsFourBits : Prop :=
  ∀ (s : State) (rest : List Turn), ∃ v : BitVec 64,
    step { s with schedule := .host (.read 0x004 .w4) :: rest } =
      .next { s with schedule := rest, answers := s.answers ++ [v] } ∧
    v.getLsbD 0 = s.busy ∧ v.getLsbD 1 = s.done ∧ v.getLsbD 2 = s.ill ∧ v.getLsbD 3 = s.bacc ∧
    (∀ n, 4 ≤ n → v.getLsbD n = false) ∧
    step { s with schedule := .host (.read 0x000 .w4) :: rest } =
      .next { s with schedule := rest, answers := s.answers ++ [0] }

/-- R31: a 32-bit write to STATUS clears DONE, ILL, BACC where bits 1, 2, 3 are 1 and has no other effect, BUSY or not. -/
def Obligations.StatusWriteClearsOnOne : Prop :=
  ∀ (s : State) (rest : List Turn) (value : BitVec 64),
    step { s with schedule := .host (.write 0x004 .w4 value) :: rest } =
      .next { s with
        schedule := rest
        done := if value.getLsbD 1 = true then false else s.done
        ill := if value.getLsbD 2 = true then false else s.ill
        bacc := if value.getLsbD 3 = true then false else s.bacc }

/-- R33, R223: a turn of the unit while BUSY runs exactly the command CMDR spells, then BUSY <- 0 and DONE <- 1; while idle
it does nothing. With nothing scheduled the turn is the unit's (the model's choice, log 1). -/
def Obligations.UnitTurnRunsTheCommandInCmdr : Prop :=
  (∀ (s : State) (rest : List Turn) (i : Instr), s.busy = true → decode s.cmdr = .ok i →
    ∃ t, exec i { s with schedule := rest } = .next t ∧
      step { s with schedule := .unit :: rest } = .next { t with busy := false, done := true }) ∧
  (∀ (s : State) (rest : List Turn), s.busy = false →
    step { s with schedule := .unit :: rest } = .next { s with schedule := rest }) ∧
  (∀ s : State, s.schedule = [] → step s = step { s with schedule := [.unit] })

/-- R33: a completion changes `f`, BUF, BUSY and DONE only; here for the command itself, before BUSY and DONE change: every
command runs on every state and touches nothing but `f` and BUF (and the sequencer registers, which are at rest after it
when they were before it). -/
def Obligations.CommandsTouchOnlyRegistersAndBuffer : Prop :=
  ∀ (i : Instr) (s : State), ∃ t, exec i s = .next t ∧ SameOutside s t ∧
    (s.seqT = false → s.seqI = 0 → t.seqT = false ∧ t.seqI = 0)

/-- R24, column "writes": what is not in it keeps its value, for every command. -/
def Obligations.OnlyTheWrittenRegistersAndBytesChange : Prop :=
  ∀ (i : Instr) (s : State), ∃ t, exec i s = .next t ∧
    (∀ r, writesReg i r = false → t.reg r = s.reg r) ∧
    (∀ a, writesByte i a = false → t.buf.read a = s.buf.read a)

/-- R24, column "reads", and R19: what a command writes depends on what it reads and on nothing else, for every command.
(X25519 reads no register: its result depends on slots 0 and 1 only.) -/
def Obligations.ResultsDependOnTheReadRegistersAndBytes : Prop :=
  ∀ (i : Instr) (s s' : State), Memory.wf s.buf → Memory.wf s'.buf →
    (∀ r, readsReg i r = true → s.reg r = s'.reg r) →
    (∀ a, readsByte i a = true → s.buf.read a = s'.buf.read a) →
    ∃ t t', exec i s = .next t ∧ exec i s' = .next t' ∧
      (∀ r, writesReg i r = true → t.reg r = t'.reg r) ∧
      (∀ a, writesByte i a = true → t.buf.read a = t'.buf.read a)

/-- The invariant holds at reset (R38; the invariant is the model's statement of R30 to R36). -/
def Obligations.InvariantHoldsAtReset : Prop := Inv State.reset

/-- Every step from every state that meets the invariant gives a state that meets it. -/
def Obligations.EveryStepKeepsTheInvariant : Prop :=
  ∀ s t : State, Inv s → step s = .next t → Inv t

/-- R18, R210: from a state that meets the invariant no step stops with a fault or a refusal, whatever is scheduled. -/
def Obligations.NoStepStops : Prop := ∀ s : State, Inv s → ∃ t, step s = .next t

/-- R33, R241: a BUSY unit completes. After every scheduled turn and one more the unit is idle (that the schedule is finite
and the unit's turn follows it is the model's choice, log 1). -/
def Obligations.TheUnitBecomesIdle : Prop :=
  ∀ s : State, Inv s → ∃ t, Host.Core.run Sys2Proof.core (s.schedule.length + 1) s = .next t ∧
    t.busy = false ∧ t.schedule = []

/-- R28, R70: CMDR changes only by an accepted write to CMD or by reset. -/
def Obligations.CmdrChangesOnlyByIssueOrReset : Prop :=
  ∀ s t : State, step s = .next t → t.cmdr ≠ s.cmdr →
    (takeTurn s).1 = .reset ∨
    ∃ value : BitVec 64, (takeTurn s).1 = .host (.write 0x000 .w4 value) ∧ s.busy = false ∧
      legal (value.truncate 32) = true ∧ t.cmdr = value.truncate 32

/-- R30, R31: ILL and BACC are sticky, cleared only by a write of 1 to their bit of STATUS or by reset; DONE is cleared only
so or by an accepted issue; BUSY falls only by completion or reset. -/
def Obligations.FlagsAreClearedOnlyAsStated : Prop :=
  ∀ s t : State, step s = .next t →
    (s.ill = true → t.ill = false → (takeTurn s).1 = .reset ∨
      ∃ v : BitVec 64, (takeTurn s).1 = .host (.write 0x004 .w4 v) ∧ v.getLsbD 2 = true) ∧
    (s.bacc = true → t.bacc = false → (takeTurn s).1 = .reset ∨
      ∃ v : BitVec 64, (takeTurn s).1 = .host (.write 0x004 .w4 v) ∧ v.getLsbD 3 = true) ∧
    (s.done = true → t.done = false → (takeTurn s).1 = .reset ∨
      (∃ v : BitVec 64, (takeTurn s).1 = .host (.write 0x004 .w4 v) ∧ v.getLsbD 1 = true) ∨
      (∃ v : BitVec 64, (takeTurn s).1 = .host (.write 0x000 .w4 v) ∧ t.busy = true)) ∧
    (s.busy = true → t.busy = false → (takeTurn s).1 = .reset ∨ ((takeTurn s).1 = .unit ∧ t.done = true))

/-! ### 20_memory.md: the host port -/

/-- R53: `MemRead(a, n)` is the little-endian sum of its bytes. -/
def Obligations.MemReadIsTheLittleEndianSum : Prop :=
  ∀ (m : Memory) (a n : Nat), m.readLE a n = ∑ t ∈ Finset.range n, (m.read (a + t)).toNat * 2^(8 * t)

/-- R57: byte access of the BUF window while idle. -/
def Obligations.BufWindowBytes : Prop :=
  ∀ (s : State) (rest : List Turn) (a : Fin 128) (v : BitVec 64), s.busy = false → Memory.wf s.buf →
    step { s with schedule := .host (.read (BitVec.ofNat 10 (0x080 + a.val)) .w1) :: rest } =
      .next { s with schedule := rest, answers := s.answers ++ [(s.buf.read a.val).zeroExtend 64] } ∧
    ∃ m : Memory,
      step { s with schedule := .host (.write (BitVec.ofNat 10 (0x080 + a.val)) .w1 v) :: rest } =
        .next { s with schedule := rest, buf := m } ∧
      m.read a.val = v.truncate 8 ∧ ∀ b, b ≠ a.val → m.read b = s.buf.read b

/-- R58: byte access of the register window while idle: byte `n` of `f[i]` is its bits 8n+7 : 8n; a write leaves the other
248 bits. -/
def Obligations.RegisterWindowBytes : Prop :=
  ∀ (s : State) (rest : List Turn) (i : RegIdx) (n : Fin 32) (v : BitVec 64), s.busy = false →
    step { s with schedule := .host (.read (BitVec.ofNat 10 (0x200 + 32 * i.val + n.val)) .w1) :: rest } =
      .next { s with
        schedule := rest
        answers := s.answers ++ [((s.reg i).extractLsb' (8 * n.val) 8).zeroExtend 64] } ∧
    ∃ t, step { s with schedule := .host (.write (BitVec.ofNat 10 (0x200 + 32 * i.val + n.val)) .w1 v) :: rest } =
        .next t ∧
      t = { s with schedule := rest, f := t.f } ∧ (∀ j, j ≠ i → t.reg j = s.reg j) ∧
      (t.reg i).extractLsb' (8 * n.val) 8 = v.truncate 8 ∧
      ∀ b, (b < 8 * n.val ∨ 8 * n.val + 8 ≤ b) → (t.reg i).getLsbD b = (s.reg i).getLsbD b

/-- R59: an access of `w` bytes inside one window is the `w` byte accesses, the byte at the first address the least
significant. -/
def Obligations.WideAccessIsItsByteAccesses : Prop :=
  ∀ (s : State) (addr : BitVec 10) (width : HostWidth) (v : BitVec 64), s.busy = false →
    (0x080 ≤ addr.toNat ∧ addr.toNat + width.bytes ≤ 0x100 ∨ 0x200 ≤ addr.toNat ∧ addr.toNat + width.bytes ≤ 0x400) →
    writeEffect addr width v s =
      (List.range width.bytes).foldl
        (fun s t => writeEffect (addr + BitVec.ofNat 10 t) .w1 (v >>> (8 * t)) s) s ∧
    (readValue addr width s).toNat =
      ∑ t ∈ Finset.range width.bytes, (readValue (addr + BitVec.ofNat 10 t) .w1 s).toNat * 2^(8 * t)

/-- R60, R62: an access to an unmapped address, or to CMD or STATUS other than as the aligned 32-bit word, reads 0, writes
nothing and sets no flag. That this holds while BUSY too is the model's reading of R61 against R62 and R213 (log 9), and that
a read's value is kept in a list is the model's choice (log 3). Accesses that straddle a window (log 2) are left out. -/
def Obligations.UnmappedAccessesDoNothing : Prop :=
  ∀ (s : State) (rest : List Turn) (addr : BitVec 10) (width : HostWidth) (v : BitVec 64),
    (addr.toNat < 0x008 ∧ ¬(addr.toNat = 0x000 ∧ width = .w4) ∧ ¬(addr.toNat = 0x004 ∧ width = .w4) ∨
      0x008 ≤ addr.toNat ∧ addr.toNat + width.bytes ≤ 0x080 ∨
      0x100 ≤ addr.toNat ∧ addr.toNat + width.bytes ≤ 0x200) →
    step { s with schedule := .host (.read addr width) :: rest } =
      .next { s with schedule := rest, answers := s.answers ++ [0] } ∧
    step { s with schedule := .host (.write addr width v) :: rest } = .next { s with schedule := rest }

/-- R61: while BUSY a window reads as 0 and its writes are dropped, both setting BACC; a write to CMD is dropped and sets
BACC; STATUS is read and written as when idle. -/
def Obligations.BusyAccessesAreRefused : Prop :=
  ∀ (s : State) (rest : List Turn) (addr : BitVec 10) (width : HostWidth) (v : BitVec 64), s.busy = true →
    ((0x080 ≤ addr.toNat ∧ addr.toNat + width.bytes ≤ 0x100 ∨
        0x200 ≤ addr.toNat ∧ addr.toNat + width.bytes ≤ 0x400) →
      step { s with schedule := .host (.read addr width) :: rest } =
        .next { s with schedule := rest, bacc := true, answers := s.answers ++ [0] } ∧
      step { s with schedule := .host (.write addr width v) :: rest } =
        .next { s with schedule := rest, bacc := true }) ∧
    step { s with schedule := .host (.write 0x000 .w4 v) :: rest } = .next { s with schedule := rest, bacc := true } ∧
    readValue 0x004 .w4 s = (statusWord s).zeroExtend 64 ∧ readEffect 0x004 .w4 s = s ∧
    writeEffect 0x004 .w4 v s = clearFlags (v.truncate 32) s

/-- R61 (and the reason (d) of 92_eei_decisions.md): while BUSY no host access tells two contents of `f` and BUF apart. -/
def Obligations.BusyUnitRevealsNothing : Prop :=
  ∀ (s s' : State) (a : HostAccess), s.busy = true → s' = { s with f := s'.f, buf := s'.buf } →
    hostAccess a s' = { hostAccess a s with f := s'.f, buf := s'.buf } ∧
    (hostAccess a s).f = s.f ∧ (hostAccess a s).buf = s.buf

/-! ### 30_encoding.md: command words -/

/-- R85, R104: every command, with every operand, is read back from its word. -/
def Obligations.DecodeOfEncodeIsTheCommand : Prop := ∀ i : Instr, i.WellFormed → decode (encode i) = .ok i

/-- R100, R104: each word has one meaning: the word that decodes to a command is that command's encoding. -/
def Obligations.EncodeOfDecodeIsTheWord : Prop :=
  ∀ (w : Word) (i : Instr), decode w = .ok i → i.WellFormed ∧ encode i = w

/-- R100: a word is legal exactly when it decodes, and at most one row matches it. -/
def Obligations.LegalWordsAreTheDecodableOnes : Prop :=
  (∀ w : Word, legal w = true ↔ ∃ i, decode w = .ok i) ∧
  (∀ (w : Word) (r r' : Row), r ∈ opcodeTable → r' ∈ opcodeTable → w &&& r.mask = r.pattern → w &&& r'.mask = r'.pattern →
    r = r')

/-- R101 with R102: the illegal words, exhaustively, each kind under its name: a reserved opcode (item 1), a must-be-zero bit
of an unused field (item 2), an odd register in a pair field, all unused fields 0 (item 3), a temporary as FINV's source, all
unused fields 0 (item 4); every other word spells a command. -/
def Obligations.IllegalWordsByName : Prop :=
  ∀ w : Word,
    (decode w = .error .reservedOpcode ↔ reservedOpcode (fieldOp w).toNat) ∧
    (decode w = .error .mustBeZero ↔ ¬ reservedOpcode (fieldOp w).toNat ∧ w &&& unusedBits (fieldOp w) ≠ 0) ∧
    (decode w = .error .oddPair ↔
      w &&& unusedBits (fieldOp w) = 0 ∧
      (fieldOp w = 0x06 ∧ (w.getLsbD 20 = true ∨ w.getLsbD 16 = true ∨ w.getLsbD 12 = true) ∨
       fieldOp w = 0x07 ∧ (w.getLsbD 20 = true ∨ w.getLsbD 16 = true) ∨
       fieldOp w = 0x09 ∧ (w.getLsbD 16 = true ∨ w.getLsbD 12 = true))) ∧
    (decode w = .error .finvTemporary ↔
      w &&& unusedBits (fieldOp w) = 0 ∧ fieldOp w = 0x12 ∧ 6 ≤ (w.extractLsb' 16 4).toNat ∧
        (w.extractLsb' 16 4).toNat ≤ 9)

/-- R85: the encoding function, command by command: `op·2^24 + d·2^20 + a·2^16 + b·2^12 + imm`, a pair by its even register. -/
def Obligations.EncodingFunction : Prop :=
  ∀ (d a b : RegIdx) (p q r : PairIdx) (sel : Bool) (imm : BitVec 12) (slot : Slot),
    (encode .nop).toNat = 0 ∧
    (encode (.fadd d a b)).toNat = 0x01 * 2^24 + d.val * 2^20 + a.val * 2^16 + b.val * 2^12 ∧
    (encode (.fsub d a b)).toNat = 0x02 * 2^24 + d.val * 2^20 + a.val * 2^16 + b.val * 2^12 ∧
    (encode (.fmul d a b)).toNat = 0x03 * 2^24 + d.val * 2^20 + a.val * 2^16 + b.val * 2^12 ∧
    (encode (.fsqr d a)).toNat = 0x04 * 2^24 + d.val * 2^20 + a.val * 2^16 ∧
    (encode (.fmuls d a)).toNat = 0x05 * 2^24 + d.val * 2^20 + a.val * 2^16 ∧
    (encode (.fmul2 p q r)).toNat = 0x06 * 2^24 + 2 * p.val * 2^20 + 2 * q.val * 2^16 + 2 * r.val * 2^12 ∧
    (encode (.fsqr2 p q)).toNat = 0x07 * 2^24 + 2 * p.val * 2^20 + 2 * q.val * 2^16 ∧
    (encode (.cswap a b sel)).toNat = 0x08 * 2^24 + a.val * 2^16 + b.val * 2^12 + sel.toNat ∧
    (encode (.cswap2 p q sel)).toNat = 0x09 * 2^24 + 2 * p.val * 2^16 + 2 * q.val * 2^12 + sel.toNat ∧
    (encode (.fmov d a)).toNat = 0x0A * 2^24 + d.val * 2^20 + a.val * 2^16 ∧
    (encode (.fseti d imm)).toNat = 0x0B * 2^24 + d.val * 2^20 + imm.toNat ∧
    (encode .padbl).toNat = 0x10 * 2^24 ∧ (encode .pdbl).toNat = 0x11 * 2^24 ∧
    (encode (.finv d a)).toNat = 0x12 * 2^24 + d.val * 2^20 + a.val * 2^16 ∧
    (encode .ladder).toNat = 0x13 * 2^24 ∧ (encode .x25519).toNat = 0x14 * 2^24 ∧
    (encode (.fdec d slot)).toNat = 0x18 * 2^24 + d.val * 2^20 + slot.val ∧
    (encode (.fldr d slot)).toNat = 0x19 * 2^24 + d.val * 2^20 + slot.val ∧
    (encode (.fenc slot d)).toNat = 0x1A * 2^24 + d.val * 2^20 + slot.val ∧
    (encode (.fstr slot d)).toNat = 0x1B * 2^24 + d.val * 2^20 + slot.val ∧
    (encode .wipe).toNat = 0x1F * 2^24

/-- R85: the spec's example words. A sanity statement. -/
def Obligations.SpecExampleWordsDecode : Prop :=
  decode 0x01312000 = .ok (.fadd 3 1 2) ∧ decode 0x02723000 = .ok (.fsub 7 2 3) ∧
  decode 0x06886000 = .ok (.fmul2 4 4 3) ∧ decode 0x07440000 = .ok (.fsqr2 2 2) ∧
  decode 0x09024001 = .ok (.cswap2 1 2 true) ∧ decode 0x0B300001 = .ok (.fseti 3 1) ∧
  decode 0x12130000 = .ok (.finv 1 3) ∧ decode 0x18000001 = .ok (.fdec 0 1) ∧
  decode 0x1A100002 = .ok (.fenc 2 1) ∧ decode 0x14000000 = .ok .x25519

/-! ### 40_field_arith.md: field arithmetic -/

/-- R114: `fadd` is two folds of the sum; in closed form `a + b - (c1 + c2)·(2^256 - 38)` with the two carries. -/
def Obligations.FaddIsTwoFolds : Prop :=
  ∀ a b : Elem,
    let c1 := (a.toNat + b.toNat) / 2^256
    let c2 := ((a.toNat + b.toNat) % 2^256 + 38 * c1) / 2^256
    (fadd a b).toNat = fold (fold (a.toNat + b.toNat)) ∧ c1 ≤ 1 ∧ c2 ≤ 1 ∧
    (fadd a b).toNat + (c1 + c2) * (2^256 - 38) = a.toNat + b.toNat

/-- R115: `fsub` in closed form `a - b + (b1 + b2)·(2^256 - 38)` with the two borrows; `b2 = 1` needs `b1 = 1`, `d < 38`. -/
def Obligations.FsubClosedForm : Prop :=
  ∀ a b : Elem,
    let d := (a - b).toNat
    let b1 := if a.toNat < b.toNat then 1 else 0
    let b2 := if b1 = 1 ∧ d < 38 then 1 else 0
    (fsub a b).toNat + b.toNat = a.toNat + (b1 + b2) * (2^256 - 38)

/-- R116: `fmul` is three folds of the exact product. -/
def Obligations.FmulIsThreeFolds : Prop := ∀ a b : Elem, (fmul a b).toNat = fold (fold (fold (a.toNat * b.toNat)))

/-- R117, R118: `fsqr(a) = fmul(a, a)` bit for bit, and `fmuls` is two folds of the product with 121665. -/
def Obligations.FsqrIsFmulAndFmulsIsTwoFolds : Prop :=
  ∀ a : Elem, fsqr a = fmul a a ∧ (fmuls a).toNat = fold (fold (a.toNat * 121665))

/-- R111: the primitives are congruent modulo P to the exact results (register values are below 2^256 by their type), and
not canonical: a result may be 2^255 or more. -/
def Obligations.PrimitivesAreCongruentModP : Prop :=
  (∀ a b : Elem,
    (fadd a b).toNat ≡ a.toNat + b.toNat [MOD Config.P] ∧
    (fsub a b).toNat + b.toNat ≡ a.toNat [MOD Config.P] ∧
    (fmul a b).toNat ≡ a.toNat * b.toNat [MOD Config.P] ∧
    (fsqr a).toNat ≡ a.toNat^2 [MOD Config.P] ∧
    (fmuls a).toNat ≡ 121665 * a.toNat [MOD Config.P]) ∧
  ∃ a b : Elem, 2^255 ≤ (fadd a b).toNat

/-- R130: the laws that hold bit for bit. -/
def Obligations.BitExactLaws : Prop :=
  (∀ a b : Elem,
    fadd a b = fadd b a ∧ fmul a b = fmul b a ∧ fsqr a = fmul a a ∧ fadd a 0 = a ∧ fsub a 0 = a ∧ fsub a a = 0 ∧
    fmul a 0 = 0 ∧ fmul a 1 = a ∧
    (a.toNat + b.toNat < 2^256 → (fadd a b).toNat = a.toNat + b.toNat) ∧
    (b.toNat ≤ a.toNat → (fsub a b).toNat = a.toNat - b.toNat) ∧
    (a.toNat * b.toNat < 2^256 → (fmul a b).toNat = a.toNat * b.toNat)) ∧
  (∃ a b : Elem, fsub a b ≠ fsub b a) ∧ (∃ a b : Elem, (fsub a b).toNat ≠ 2^256 - (fsub b a).toNat)

/-- R120, R121, R122: FADD, FSUB, FMUL, as their words spell them, run on every state; the destination gets the result of the sources as they were, every
other register, BUF and the flags stay. -/
def Obligations.ThreeRegisterCommands : Prop :=
  ∀ (d a b : RegIdx) (s : State),
    Spells 0x01 (regBits d) (regBits a) (regBits b) 0 (.fadd d a b) ∧
    GivesRegisters (.fadd d a b) s (fun r => if r = d then fadd (s.reg a) (s.reg b) else s.reg r) ∧
    Spells 0x02 (regBits d) (regBits a) (regBits b) 0 (.fsub d a b) ∧
    GivesRegisters (.fsub d a b) s (fun r => if r = d then fsub (s.reg a) (s.reg b) else s.reg r) ∧
    Spells 0x03 (regBits d) (regBits a) (regBits b) 0 (.fmul d a b) ∧
    GivesRegisters (.fmul d a b) s (fun r => if r = d then fmul (s.reg a) (s.reg b) else s.reg r)

/-- R123, R124, R127, R128: FSQR, FMULS, FMOV, FSETI, as their words spell them, run on every state; the destination gets the result, everything else
stays. -/
def Obligations.TwoRegisterAndImmediateCommands : Prop :=
  ∀ (d a : RegIdx) (imm : BitVec 12) (s : State),
    Spells 0x04 (regBits d) (regBits a) 0 0 (.fsqr d a) ∧
    GivesRegisters (.fsqr d a) s (fun r => if r = d then fsqr (s.reg a) else s.reg r) ∧
    Spells 0x05 (regBits d) (regBits a) 0 0 (.fmuls d a) ∧
    GivesRegisters (.fmuls d a) s (fun r => if r = d then fmuls (s.reg a) else s.reg r) ∧
    Spells 0x0A (regBits d) (regBits a) 0 0 (.fmov d a) ∧
    GivesRegisters (.fmov d a) s (fun r => if r = d then s.reg a else s.reg r) ∧
    Spells 0x0B (regBits d) 0 0 imm (.fseti d imm) ∧
    GivesRegisters (.fseti d imm) s (fun r => if r = d then BitVec.ofNat 256 imm.toNat else s.reg r)

/-- R125, R126: FMUL2 and FSQR2 run on every state and for every choice of pairs, overlapping or not: both halves are
computed from the sources as they were. A word with an odd register in a pair field is illegal. -/
def Obligations.PairCommands : Prop :=
  (∀ w : Word, fieldOp w = 0x06 → (w.getLsbD 20 = true ∨ w.getLsbD 16 = true ∨ w.getLsbD 12 = true) → legal w = false) ∧
  (∀ w : Word, fieldOp w = 0x07 → (w.getLsbD 20 = true ∨ w.getLsbD 16 = true) → legal w = false) ∧
  ∀ (d a b : PairIdx) (s : State),
    Spells 0x06 (pairBits d) (pairBits a) (pairBits b) 0 (.fmul2 d a b) ∧
    Spells 0x07 (pairBits d) (pairBits a) 0 0 (.fsqr2 d a) ∧
    GivesRegisters (.fmul2 d a b) s (fun r =>
      if r.val = 2 * d.val then fmul (s.reg (pairEven a)) (s.reg (pairEven b))
      else if r.val = 2 * d.val + 1 then fmul (s.reg (pairOdd a)) (s.reg (pairOdd b))
      else s.reg r) ∧
    trace (.fmul2 d a b) = [.fmul, .fmul] ∧
    GivesRegisters (.fsqr2 d a) s (fun r =>
      if r.val = 2 * d.val then fsqr (s.reg (pairEven a))
      else if r.val = 2 * d.val + 1 then fsqr (s.reg (pairOdd a))
      else s.reg r) ∧
    trace (.fsqr2 d a) = [.fsqr, .fsqr]

/-! ### 41_cswap.md: conditional swap -/

/-- R142, R143: CSWAP and CSWAP2, as their words spell them, run on every state: with selector 1 the operands are exchanged (both halves of a pair
together), with selector 0 nothing changes; the trace is the same for both selectors. A CSWAP2 word with an odd register is
illegal. -/
def Obligations.SwapCommands : Prop :=
  (∀ w : Word, fieldOp w = 0x09 → (w.getLsbD 16 = true ∨ w.getLsbD 12 = true) → legal w = false) ∧
  (∀ (a b : RegIdx) (sel : Bool) (s : State),
    Spells 0x08 0 (regBits a) (regBits b) (selBits sel) (.cswap a b sel) ∧
    GivesRegisters (.cswap a b sel) s (fun r =>
      if sel = true then (if r = a then s.reg b else if r = b then s.reg a else s.reg r) else s.reg r) ∧
    trace (.cswap a b sel) = [.cswap]) ∧
  (∀ (a b : PairIdx) (sel : Bool) (s : State),
    Spells 0x09 0 (pairBits a) (pairBits b) (selBits sel) (.cswap2 a b sel) ∧
    GivesRegisters (.cswap2 a b sel) s (fun r =>
      if sel = true then
        (if r = pairEven a then s.reg (pairEven b) else if r = pairEven b then s.reg (pairEven a)
         else if r = pairOdd a then s.reg (pairOdd b) else if r = pairOdd b then s.reg (pairOdd a)
         else s.reg r)
      else s.reg r) ∧
    trace (.cswap2 a b sel) = [.cswap2])

/-- R144: the laws of the swap, bit for bit. -/
def Obligations.SwapLaws : Prop :=
  ∀ (x y : Elem) (s1 s2 : Bool),
    cswap false x y = (x, y) ∧ cswap true x y = (y, x) ∧
    cswap s1 (cswap s1 x y).1 (cswap s1 x y).2 = (x, y) ∧
    cswap s1 (cswap s2 x y).1 (cswap s2 x y).2 = cswap (s1 ^^ s2) x y

/-! ### 42_point_ops.md: point commands -/

/-- R152: the state after PADBL, register by register; it runs on every state. -/
def Obligations.PadblResult : Prop :=
  ∀ s : State,
    let A := fadd (s.reg 2) (s.reg 3)
    let B := fsub (s.reg 2) (s.reg 3)
    let C := fadd (s.reg 4) (s.reg 5)
    let D := fsub (s.reg 4) (s.reg 5)
    let DA := fmul D A
    let CB := fmul C B
    let AA := fsqr A
    let BB := fsqr B
    let E := fsub AA BB
    GivesRegisters .padbl s (fun r =>
      if r = 2 then fmul AA BB
      else if r = 3 then fmul E (fadd (fmuls E) AA)
      else if r = 4 then fsqr (fadd DA CB)
      else if r = 5 then fmul (fsqr (fsub DA CB)) (s.reg 0)
      else if r = 6 then BB
      else if r = 7 then fadd (fmuls E) AA
      else if r = 8 then AA
      else if r = 9 then E
      else s.reg r)

/-- R154: the state after PDBL, register by register; it runs on every state and leaves the same f2, f3 as PADBL; a point
with Z2 = 0 gets E = 0 and Z2' = 0, so (1, 0) stays (1, 0); the worked example (9, 1). -/
def Obligations.PdblResult : Prop :=
  ∀ s : State,
    let AA := fsqr (fadd (s.reg 2) (s.reg 3))
    let BB := fsqr (fsub (s.reg 2) (s.reg 3))
    let E := fsub AA BB
    GivesRegisters .pdbl s (fun r =>
      if r = 2 then fmul AA BB
      else if r = 3 then fmul E (fadd (fmuls E) AA)
      else if r = 6 then BB
      else if r = 7 then fadd (fmuls E) AA
      else if r = 8 then AA
      else if r = 9 then E
      else s.reg r) ∧
    (∃ t u, exec .pdbl s = .next t ∧ exec .padbl s = .next u ∧ t.reg 2 = u.reg 2 ∧ t.reg 3 = u.reg 3) ∧
    (s.reg 3 = 0 → ∃ t, exec .pdbl s = .next t ∧ t.reg 9 = 0 ∧ t.reg 3 = 0 ∧ (s.reg 2 = 1 → t.reg 2 = 1)) ∧
    (s.reg 2 = 9 → s.reg 3 = 1 → ∃ t, exec .pdbl s = .next t ∧ t.reg 2 = 6400 ∧ t.reg 3 = 157681440 ∧ t.reg 6 = 64 ∧
      t.reg 7 = 4380040 ∧ t.reg 8 = 100 ∧ t.reg 9 = 36)

/-- R151, R153: the words 0x10000000 and 0x11000000 are PADBL and PDBL, and these are exactly their 15 and 8 commands, one
after the other. -/
def Obligations.PointCommandsAreTheirSequences : Prop :=
  decode 0x10000000 = .ok .padbl ∧ decode 0x11000000 = .ok .pdbl ∧
  ∀ s : State, exec .padbl s = execAll padblCommands s ∧ exec .pdbl s = execAll pdblCommands s

/-- R155, with the formulas of R150 and R151: on `y^2 = x^3 + A·x^2 + x` over every field in which P is 0 (so for points of the
curve and of its twist alike), where `f0` is the affine x-coordinate of Q, `(f2:f3)` represents nQ and `(f4:f5)` represents
(n+1)Q, PADBL runs and leaves `(f2:f3)` representing 2nQ and `(f4:f5)` representing (2n+1)Q. The addition half is R155's for
`X1 ≠ 0`; for `X1 = 0` the formulas of R150 give `(0:0)`, which represents no point, and the statement says so (log 15). -/
def Obligations.PadblDoublesAndAddsOnTheCurve : Prop :=
  ∀ (K : Type) [Field K] [DecidableEq K] [CharP K Config.P] (Q : (curve K).Point) (n : ℕ) (s : State),
    RepresentsX (s.elem K 0) 1 Q → RepresentsX (s.elem K 2) (s.elem K 3) (n • Q) →
    RepresentsX (s.elem K 4) (s.elem K 5) ((n + 1) • Q) →
    ∃ t, exec .padbl s = .next t ∧ RepresentsX (t.elem K 2) (t.elem K 3) ((2 * n) • Q) ∧
      (s.elem K 0 ≠ 0 → RepresentsX (t.elem K 4) (t.elem K 5) ((2 * n + 1) • Q)) ∧
      (s.elem K 0 = 0 → t.elem K 4 = 0 ∧ t.elem K 5 = 0)

/-! ### 43_ladder.md: the ladder -/

/-- R162 to R165, R222: the word 0x13000000 is LADDER, and LADDER gives the state that its commands give when a host issues them one at a time with the
selectors `kbit(i+1) xor kbit(i)` in the words. -/
def Obligations.LadderIsItsCommands : Prop :=
  decode 0x13000000 = .ok .ladder ∧
  ∀ s : State, s.seqT = false → s.seqI = 0 → exec .ladder s = execAll (ladderCommands s.kbit) s

/-- R163, R167: what LADDER writes depends on f0 and on the scalar bits 3 .. 254 only: bits 0, 1, 2 and 255 have no effect. -/
def Obligations.LadderDependsOnX1AndBits3To254 : Prop :=
  ∀ s s' : State, s.reg 0 = s'.reg 0 → (∀ i, 3 ≤ i → i ≤ 254 → s.kbit i = s'.kbit i) →
    ∃ t t', exec .ladder s = .next t ∧ exec .ladder s' = .next t' ∧
      ∀ r : RegIdx, 2 ≤ r.val → r.val ≤ 9 → t.reg r = t'.reg r

/-- R170 (a): with the scalar bits 3 .. 254 all zero the result is (1, 0), whatever f0 is. -/
def Obligations.LadderOfZeroScalar : Prop :=
  ∀ s : State, (∀ i, 3 ≤ i → i ≤ 254 → s.kbit i = false) →
    ∃ t, exec .ladder s = .next t ∧ t.reg 2 = 1 ∧ t.reg 3 = 0

/-- R150, R162 to R165 modulo P: LADDER's result registers represent the result of the textbook ladder computed exactly in
the integers modulo P without any swap; p1 likewise. -/
def Obligations.LadderRefinesTheLadderModP : Prop :=
  ∀ s : State, ∃ t, exec .ladder s = .next t ∧
    (residue (t.reg 2), residue (t.reg 3)) = modResult (residue (s.reg 0)) s.kbit ∧
    (residue (t.reg 4), residue (t.reg 5)) = (modLadder (residue (s.reg 0)) s.kbit 252).2

/-- R157, R169, R186, R204, R240: the traces of the macro commands, PADBL, PDBL, FINV, LADDER and X25519, the same for all
operands and all states, and their counts by kind. -/
def Obligations.MacroTraces : Prop :=
  trace .padbl = padblTrace ∧ padblTrace.length = 19 ∧ padblTrace.count .fadd = 4 ∧ padblTrace.count .fsub = 4 ∧
  padblTrace.count .fmul = 5 ∧ padblTrace.count .fsqr = 4 ∧ padblTrace.count .fmuls = 1 ∧ padblTrace.count .fmov = 1 ∧
  trace .pdbl = pdblTrace ∧ pdblTrace.length = 10 ∧ pdblTrace.count .fadd = 2 ∧ pdblTrace.count .fsub = 2 ∧
  pdblTrace.count .fmul = 2 ∧ pdblTrace.count .fsqr = 2 ∧ pdblTrace.count .fmuls = 1 ∧ pdblTrace.count .fmov = 1 ∧
  (∀ d a : RegIdx, trace (.finv d a) = finvTrace) ∧ finvTrace.length = 265 ∧ finvTrace.count .fsqr = 254 ∧
  finvTrace.count .fmul = 11 ∧ trace .ladder = ladderTrace ∧ ladderTrace.length = 5075 ∧
  ladderTrace.count .fmul = 1266 ∧ ladderTrace.count .fsqr = 1014 ∧ ladderTrace.count .fadd = 1014 ∧
  ladderTrace.count .fsub = 1014 ∧ ladderTrace.count .fmuls = 255 ∧ ladderTrace.count .fmov = 256 ∧
  ladderTrace.count .cswap2 = 253 ∧ ladderTrace.count .fseti = 3 ∧
  trace .x25519 = x25519Trace ∧ x25519Trace.length = 5353

/-! ### 44_inversion.md: inversion -/

/-- R182: FINV is exactly the commands of its chain, 265 of them, one after the other. -/
def Obligations.FinvIsItsChain : Prop :=
  ∀ (d a : RegIdx), (finvCommands d a).length = 265 ∧ ∀ s : State, exec (.finv d a) s = execAll (finvCommands d a) s

/-- R181, R183: FINV, as its word spells it, runs on every state for every legal source; the destination is congruent to `f[a]^(P-2)`, the
temporaries to the powers of R183 unless one is the destination; everything else stays. -/
def Obligations.FinvIsThePower : Prop :=
  ∀ (d a : RegIdx) (s : State), Instr.WellFormed (.finv d a) →
    Spells 0x12 (regBits d) (regBits a) 0 0 (.finv d a) ∧ ∃ t, exec (.finv d a) s = .next t ∧
      residue (t.reg d) = residue (s.reg a)^(Config.P - 2) ∧
      (d ≠ 6 → residue (t.reg 6) = residue (s.reg a)^11) ∧
      (d ≠ 7 → residue (t.reg 7) = residue (s.reg a)^(2^50 - 1)) ∧
      (d ≠ 8 → residue (t.reg 8) = residue (s.reg a)^(2^100 - 1)) ∧
      (d ≠ 9 → residue (t.reg 9) = residue (s.reg a)^(2^255 - 32)) ∧
      (∀ r : RegIdx, r ≠ d → (r.val < 6 ∨ 9 < r.val) → t.reg r = s.reg r) ∧
      (∀ b, t.buf.read b = s.buf.read b) ∧ SameOutside s t ∧ t.seqT = s.seqT ∧ t.seqI = s.seqI

/-- R181: for a source that does not represent 0, FINV's result is the inverse. -/
def Obligations.FinvIsTheInverse : Prop :=
  ∀ (d a : RegIdx) (s : State), Instr.WellFormed (.finv d a) → (s.reg a).toNat % Config.P ≠ 0 →
    ∃ t, exec (.finv d a) s = .next t ∧ (fmul (t.reg d) (s.reg a)).toNat % Config.P = 1

/-- R185: a source that represents 0 gives a result that represents 0; bit for bit for the sources 0 and P; the trace is
that of every other source. -/
def Obligations.FinvOfZero : Prop :=
  ∀ (d a : RegIdx) (s : State), Instr.WellFormed (.finv d a) → (s.reg a).toNat % Config.P = 0 →
    trace (.finv d a) = finvTrace ∧
    ∃ t, exec (.finv d a) s = .next t ∧ (t.reg d).toNat % Config.P = 0 ∧
      (s.reg a = 0 → ∀ r : RegIdx, (r = d ∨ isTemporary r = true) → t.reg r = 0) ∧
      ((s.reg a).toNat = Config.P → ∀ r : RegIdx, (r = d ∨ isTemporary r = true) → (t.reg r).toNat = Config.P)

/-! ### 45_codec_toplevel.md: codec and top level -/

/-- R190, R191: FDEC and FLDR, as their words spell them, run on every state: the slot's integer with and without bit 255; limb `j` of FLDR's result is
bytes 8j .. 8j+7 of the slot; everything else stays. -/
def Obligations.LoadCommands : Prop :=
  ∀ (d : RegIdx) (slot : Slot) (s : State),
    Spells 0x18 (regBits d) 0 0 (slotBits slot) (.fdec d slot) ∧
    Spells 0x19 (regBits d) 0 0 (slotBits slot) (.fldr d slot) ∧
    (∃ v : Elem, v.toNat = s.buf.readLE (32 * slot.val) 32 % 2^255 ∧
      GivesRegisters (.fdec d slot) s (fun r => if r = d then v else s.reg r)) ∧
    (∃ v : Elem, v.toNat = s.buf.readLE (32 * slot.val) 32 ∧
      (∀ j, j < 4 → (limb v j).toNat = s.buf.readLE (32 * slot.val + 8 * j) 8) ∧
      GivesRegisters (.fldr d slot) s (fun r => if r = d then v else s.reg r))

/-- R192: `canon(v)` is `v mod P` for every register value. -/
def Obligations.CanonIsTheRemainder : Prop := ∀ v : Elem, canon v.toNat = v.toNat % Config.P

/-- R193, R194: FENC and FSTR, as their words spell them, run; the 32 bytes from 32·slot are the little-endian bytes of `f[r] mod P` and of `f[r]`; every
byte outside them, every register and every flag stays. Bit 7 of byte 31 that FENC writes is 0. -/
def Obligations.StoreCommands : Prop :=
  ∀ (slot : Slot) (r : RegIdx) (s : State), Memory.wf s.buf →
    Spells 0x1A (regBits r) 0 0 (slotBits slot) (.fenc slot r) ∧
    Spells 0x1B (regBits r) 0 0 (slotBits slot) (.fstr slot r) ∧
    (∃ t, exec (.fenc slot r) s = .next t ∧
      (∀ k, k < 32 → t.buf.read (32 * slot.val + k) = BitVec.ofNat 8 ((s.reg r).toNat % Config.P / 2^(8 * k))) ∧
      (t.buf.read (32 * slot.val + 31)).getLsbD 7 = false ∧
      (∀ a, (a < 32 * slot.val ∨ 32 * slot.val + 32 ≤ a) → t.buf.read a = s.buf.read a) ∧
      (∀ x, t.reg x = s.reg x) ∧ SameOutside s t ∧ t.seqT = s.seqT ∧ t.seqI = s.seqI) ∧
    (∃ t, exec (.fstr slot r) s = .next t ∧
      (∀ k, k < 32 → t.buf.read (32 * slot.val + k) = (s.reg r).extractLsb' (8 * k) 8) ∧
      (∀ a, (a < 32 * slot.val ∨ 32 * slot.val + 32 ≤ a) → t.buf.read a = s.buf.read a) ∧
      (∀ x, t.reg x = s.reg x) ∧ SameOutside s t ∧ t.seqT = s.seqT ∧ t.seqI = s.seqI)

/-- R195: the round trips: FENC then FDEC gives `f[r] mod P`; FSTR then FLDR gives `f[r]`; FDEC then FENC of a slot holding
`u` gives `(u mod 2^255) mod P`. -/
def Obligations.CodecRoundTrips : Prop :=
  ∀ (slot out : Slot) (r d : RegIdx) (s : State), Memory.wf s.buf →
    (∃ t, execAll [.fenc slot r, .fdec d slot] s = .next t ∧ (t.reg d).toNat = (s.reg r).toNat % Config.P) ∧
    (∃ t, execAll [.fstr slot r, .fldr d slot] s = .next t ∧ t.reg d = s.reg r) ∧
    (∃ t, execAll [.fdec d slot, .fenc out d] s = .next t ∧
      t.buf.readLE (32 * out.val) 32 = s.buf.readLE (32 * slot.val) 32 % 2^255 % Config.P)

/-- R198: the word 0x14000000 is X25519, and X25519 is exactly its commands, one after the other; it ends with f0 .. f9 zero, f10 .. f15 and every byte outside
slot 2 unchanged. -/
def Obligations.X25519IsItsCommands : Prop :=
  decode 0x14000000 = .ok .x25519 ∧ ∀ s : State, exec .x25519 s = execAll x25519Commands s ∧
    ∃ t, exec .x25519 s = .next t ∧ SameOutside s t ∧
      (∀ r : RegIdx, r.val ≤ 9 → t.reg r = 0) ∧ (∀ r : RegIdx, 10 ≤ r.val → t.reg r = s.reg r) ∧
      (∀ a, (a < 64 ∨ 96 ≤ a) → t.buf.read a = s.buf.read a)

/-- R196 to R198 modulo P: X25519 writes to slot 2 the canonical integer X·Z^(P-2) mod P of the textbook ladder on
`u = MemRead(32, 32) mod 2^255` and the scalar bits of slot 0, a function of slots 0 and 1 alone. -/
def Obligations.X25519OutputIsTheLadderModP : Prop :=
  ∀ s : State, Memory.wf s.buf → ∃ t, exec .x25519 s = .next t ∧
    t.buf.readLE 64 32 =
      ((modResult ((s.buf.readLE 32 32 % 2^255 : Nat) : FP) s.kbit).1 *
        (modResult ((s.buf.readLE 32 32 % 2^255 : Nat) : FP) s.kbit).2^(Config.P - 2)).val

/-- R203: an all-zero scalar gives 32 zero bytes for every point. -/
def Obligations.X25519OfZeroScalar : Prop :=
  ∀ s : State, Memory.wf s.buf → s.buf.readLE 0 32 = 0 →
    ∃ t, exec .x25519 s = .next t ∧ ∀ a, 64 ≤ a → a < 96 → t.buf.read a = 0

/-- R199, R200: the words 0x1F000000 and 0x00000000 are WIPE and NOP; WIPE zeroes every register and every byte and leaves the
flags; NOP changes nothing and its trace is empty. -/
def Obligations.WipeAndNop : Prop :=
  decode 0x1F000000 = .ok .wipe ∧ decode 0x00000000 = .ok .nop ∧ trace .nop = [] ∧
  ∀ s : State,
    (∃ t, exec .wipe s = .next t ∧ (∀ r, t.reg r = 0) ∧ (∀ a, t.buf.read a = 0) ∧ SameOutside s t ∧
      t.seqT = s.seqT ∧ t.seqI = s.seqI) ∧
    exec .nop s = .next s
end

