-- ==== Sys2Proof/Laws/Curve.lean ====
section
/-! SUPPORT. The formulas of 42_point_ops.md R150 on the points of the curve, over every field in which P is 0: what doubling
and differential addition represent (R155). -/

namespace Sys2Proof.Machine

open WeierstrassCurve.Affine

variable {K : Type} [Field K]

/-- The equation of the curve. -/
theorem curve_equation {x y : K} (h : (curve K).Nonsingular x y) : y^2 = x^3 + (4 * Config.A24 + 2) * x^2 + x := by
  have := ((curve K).equation_iff x y).1 h.1
  simp only [curve] at this
  linear_combination this

section

variable [DecidableEq K]

/-- A point with `y = 0` doubles to the point at infinity. -/
theorem double_zero {x y : K} (h : (curve K).Nonsingular x y) (hy : y = 0) :
    (Point.some x y h + Point.some x y h : (curve K).Point) = 0 :=
  Point.add_self_of_Y_eq (by simp [negY, curve, hy])

/-- Two points with different x: the x of their sum times the x of their difference. -/
theorem add_some_of_ne {x₁ y₁ x₂ y₂ : K} (h₁ : (curve K).Nonsingular x₁ y₁) (h₂ : (curve K).Nonsingular x₂ y₂)
    (hx : x₁ ≠ x₂) :
    ∃ xs ys hs xd yd hd, (Point.some x₁ y₁ h₁ + Point.some x₂ y₂ h₂ : (curve K).Point) = Point.some xs ys hs ∧
      (Point.some x₁ y₁ h₁ - Point.some x₂ y₂ h₂ : (curve K).Point) = Point.some xd yd hd ∧
      xs * xd * (x₁ - x₂)^2 = (x₁ * x₂ - 1)^2 := by
  have hx' := sub_ne_zero.2 hx
  have hd := (sub_eq_add_neg (Point.some x₁ y₁ h₁) (Point.some x₂ y₂ h₂)).trans
    (Point.add_of_X_ne (h₂ := (nonsingular_neg x₂ y₂).2 h₂) hx)
  refine ⟨_, _, _, _, _, _, Point.add_of_X_ne hx, hd, ?_⟩
  rw [slope_of_X_ne hx, slope_of_X_ne hx]
  have e₁ := curve_equation h₁
  have e₂ := curve_equation h₂
  simp only [addX, negY, curve]
  rw [← mul_left_inj' (pow_ne_zero 2 hx')]
  trans (y₁^2 + y₂^2 - (4 * Config.A24 + 2 + x₁ + x₂) * (x₁ - x₂)^2)^2 - 4 * y₁^2 * y₂^2
  · field_simp
    ring
  · rw [e₁, e₂]; ring

end

variable [CharP K Config.P]

/-- Positive numbers below P are not 0 in the field. -/
theorem cast_ne_zero {n : ℕ} (h0 : n ≠ 0) (h : n < Config.P) : (n : K) ≠ 0 := fun e =>
  absurd (Nat.le_of_dvd (Nat.pos_of_ne_zero h0) ((CharP.cast_eq_zero_iff K Config.P n).1 e)) (by omega)

theorem two_ne_zero_of_P : (2 : K) ≠ 0 := by exact_mod_cast cast_ne_zero (K := K) (n := 2) (by decide) (by decide)

/-- No point `(±1, 0)` is on the curve: A is neither 2 nor -2. -/
theorem curve_x_sq {x y : K} (h : (curve K).Nonsingular x y) (hy : y = 0) : x^2 ≠ 1 := by
  intro hx
  have e := curve_equation h
  have h1 : (Config.A24 : K) ≠ 0 := cast_ne_zero (by decide) (by decide)
  have h2 : (Config.A24 : K) + 1 ≠ 0 := by exact_mod_cast cast_ne_zero (K := K) (n := Config.A24 + 1) (by decide) (by decide)
  have h3 := two_ne_zero_of_P (K := K)
  have : (x - 1) * (x + 1) = 0 := by linear_combination hx
  rcases mul_eq_zero.1 this with hh | hh
  · have hx1 : x = 1 := by linear_combination hh
    subst hx1; subst hy
    exact mul_ne_zero (mul_ne_zero h3 h3) h2 (by linear_combination - e)
  · have hx1 : x = -1 := by linear_combination hh
    subst hx1; subst hy
    exact mul_ne_zero (mul_ne_zero h3 h3) h1 (by linear_combination - e)

variable [DecidableEq K]

/-- The x of the double of a point with `y ≠ 0`. -/
theorem double_some {x y : K} (h : (curve K).Nonsingular x y) (hy : y ≠ 0) :
    ∃ x' y' h', (Point.some x y h + Point.some x y h : (curve K).Point) = Point.some x' y' h' ∧
      x' * (4 * y^2) = (x^2 - 1)^2 := by
  have h3 := two_ne_zero_of_P (K := K)
  have hny : y ≠ (curve K).negY x y := by
    simp only [negY, curve]
    intro e
    exact mul_ne_zero h3 hy (by linear_combination e)
  refine ⟨_, _, _, Point.add_self_of_Y_ne hny, ?_⟩
  rw [slope_of_Y_ne rfl hny]
  have hd : y - (curve K).negY x y = 2 * y := by simp only [negY, curve]; ring
  rw [hd]
  simp only [addX, curve]
  have e := curve_equation h
  have h2y := mul_ne_zero h3 hy
  field_simp
  linear_combination (-16 * (4 * (Config.A24:K) + 2) - 32 * x) * e

/-- The doubling formulas of 42_point_ops.md R150 represent the double, whatever point is represented. -/
theorem representsX_double {X Z : K} {R : (curve K).Point} (h : RepresentsX X Z R) :
    RepresentsX ((X + Z)^2 * (X - Z)^2)
      (((X + Z)^2 - (X - Z)^2) * ((X + Z)^2 + Config.A24 * ((X + Z)^2 - (X - Z)^2))) (R + R) := by
  have h3 := two_ne_zero_of_P (K := K)
  match R, h with
  | .zero, ⟨hX, hZ⟩ =>
    rw [show (Point.zero + Point.zero : (curve K).Point) = Point.zero from add_zero (0 : (curve K).Point)]
    subst hZ
    exact ⟨by simpa using hX, by ring⟩
  | .some x y hn, ⟨hZ, hX⟩ =>
    subst hX
    have e := curve_equation hn
    have e1 : ((x * Z + Z) ^ 2 - (x * Z - Z) ^ 2) *
        ((x * Z + Z) ^ 2 + Config.A24 * ((x * Z + Z) ^ 2 - (x * Z - Z) ^ 2)) = 4 * y^2 * Z^4 := by
      linear_combination (-4 * Z^4) * e
    have e2 : (x * Z + Z) ^ 2 * (x * Z - Z) ^ 2 = (x^2 - 1)^2 * Z^4 := by ring
    rw [e1, e2]
    by_cases hy : y = 0
    · rw [double_zero hn hy]
      have := sub_ne_zero.2 (curve_x_sq hn hy)
      exact ⟨mul_ne_zero (pow_ne_zero _ this) (pow_ne_zero _ hZ), by simp [hy]⟩
    · obtain ⟨x', y', h', hs, hx'⟩ := double_some hn hy
      rw [hs]
      have h4 : (4 : K) ≠ 0 := by simpa [show (4:K) = 2 * 2 by norm_num] using h3
      refine ⟨mul_ne_zero (mul_ne_zero h4 (pow_ne_zero _ hy)) (pow_ne_zero _ hZ), ?_⟩
      linear_combination (-Z^4) * hx'

/-- The differential addition of 42_point_ops.md R150 represents the sum of two points whose difference has the affine
x-coordinate `x ≠ 0`, whatever points they are. -/
theorem representsX_add {x X₂ Z₂ X₃ Z₃ : K} {Q R S : (curve K).Point} (hQ : RepresentsX x 1 Q)
    (hR : RepresentsX X₂ Z₂ R) (hS : RepresentsX X₃ Z₃ S) (hd : S - R = Q) (hx : x ≠ 0) :
    RepresentsX (((X₃ - Z₃) * (X₂ + Z₂) + (X₃ + Z₃) * (X₂ - Z₂))^2)
      (x * ((X₃ - Z₃) * (X₂ + Z₂) - (X₃ + Z₃) * (X₂ - Z₂))^2) (R + S) := by
  have h2 := two_ne_zero_of_P (K := K)
  have h4 : (4 : K) ≠ 0 := by simpa [show (4:K) = 2 * 2 by norm_num] using h2
  rw [show ((X₃ - Z₃) * (X₂ + Z₂) + (X₃ + Z₃) * (X₂ - Z₂))^2 = 4 * (X₂ * X₃ - Z₂ * Z₃)^2 by ring,
    show x * ((X₃ - Z₃) * (X₂ + Z₂) - (X₃ + Z₃) * (X₂ - Z₂))^2 = 4 * x * (X₃ * Z₂ - X₂ * Z₃)^2 by ring]
  match Q, R, S, hQ, hR, hS with
  | .zero, _, _, ⟨_, h⟩, _, _ => exact absurd h one_ne_zero
  | .some xq yq hq, .zero, S, ⟨_, hxq⟩, ⟨hX₂, hZ₂⟩, hS =>
    have hS0 : S = .some xq yq hq := (sub_zero S).symm.trans hd
    subst hS0
    obtain ⟨hZ₃, hX₃⟩ := hS
    rw [show (Point.zero + Point.some xq yq hq : (curve K).Point) = _ from zero_add (Point.some xq yq hq)]
    subst hZ₂ hX₃
    obtain rfl : x = xq := by simpa using hxq
    refine ⟨?_, by ring⟩
    rw [show 4 * x * (x * Z₃ * 0 - X₂ * Z₃)^2 = 4 * x * (X₂ * Z₃)^2 by ring]
    exact mul_ne_zero (mul_ne_zero h4 hx) (pow_ne_zero 2 (mul_ne_zero hX₂ hZ₃))
  | .some xq yq hq, .some x₂ y₂ h₂, .zero, ⟨_, hxq⟩, ⟨hZ₂, hX₂⟩, ⟨hX₃, hZ₃⟩ =>
    have hR0 : -Point.some x₂ y₂ h₂ = .some xq yq hq := (zero_sub (Point.some x₂ y₂ h₂)).symm.trans hd
    rw [Point.neg_some] at hR0
    obtain ⟨rfl, -⟩ := Point.some.inj hR0
    rw [show (Point.some x₂ y₂ h₂ + Point.zero : (curve K).Point) = _ from add_zero (Point.some x₂ y₂ h₂)]
    subst hZ₃ hX₂
    obtain rfl : x = x₂ := by simpa using hxq
    refine ⟨?_, by ring⟩
    rw [show 4 * x * (X₃ * Z₂ - x * Z₂ * 0)^2 = 4 * x * (X₃ * Z₂)^2 by ring]
    exact mul_ne_zero (mul_ne_zero h4 hx) (pow_ne_zero 2 (mul_ne_zero hX₃ hZ₂))
  | .some xq yq hq, .some x₂ y₂ h₂, .some x₃ y₃ h₃, ⟨_, hxq⟩, ⟨hZ₂, hX₂⟩, ⟨hZ₃, hX₃⟩ =>
    subst hX₂ hX₃
    obtain rfl : x = xq := by simpa using hxq
    have hZ := pow_ne_zero 2 (mul_ne_zero hZ₂ hZ₃)
    rw [show 4 * (x₂ * Z₂ * (x₃ * Z₃) - Z₂ * Z₃)^2 = 4 * (x₃ * x₂ - 1)^2 * (Z₂ * Z₃)^2 by ring,
      show 4 * x * (x₃ * Z₃ * Z₂ - x₂ * Z₂ * Z₃)^2 = 4 * x * (x₃ - x₂)^2 * (Z₂ * Z₃)^2 by ring]
    by_cases hne : x₃ = x₂
    · rcases Point.X_eq_iff.1 hne with h | h
      · rw [h] at hd
        exact absurd ((sub_self (Point.some x₂ y₂ h₂)).symm.trans hd).symm (Point.some_ne_zero hq)
      · have hs : -Point.some x₂ y₂ h₂ = Point.some x₃ y₃ h₃ := h.symm
        have hd2 : Point.some x₃ y₃ h₃ + Point.some x₃ y₃ h₃ = Point.some x yq hq := by
          rw [← hd, sub_eq_add_neg, hs]
        rw [← hs, add_neg_cancel]
        have hy : y₃ ≠ 0 := fun hy => Point.some_ne_zero hq (hd2.symm.trans (double_zero h₃ hy))
        obtain ⟨x', y', h', e, hx'⟩ := double_some h₃ hy
        obtain ⟨rfl, -⟩ := Point.some.inj (e.symm.trans hd2)
        subst hne
        refine ⟨mul_ne_zero (mul_ne_zero h4 ?_) hZ, by ring⟩
        rw [← pow_two, ← hx']
        exact mul_ne_zero hx (mul_ne_zero h4 (pow_ne_zero 2 hy))
    · obtain ⟨xs, ys, hs, xd, yd, hd', es, ed, e⟩ := add_some_of_ne h₃ h₂ hne
      obtain ⟨rfl, -⟩ := Point.some.inj (ed.symm.trans hd)
      rw [add_comm, es]
      refine ⟨mul_ne_zero (mul_ne_zero (mul_ne_zero h4 hx) (pow_ne_zero 2 (sub_ne_zero.2 hne))) hZ, ?_⟩
      linear_combination (-4 * (Z₂ * Z₃)^2) * e

end Sys2Proof.Machine
end

