-- ==== Sys2Proof/Laws/Encode.lean ====
section
/-! SUPPORT. The fields of an assembled command word (30_encoding.md R81, R85). -/

namespace Sys2Proof

section
variable (op : BitVec 8) (d a b : BitVec 4) (imm : BitVec 12)

/-- `w = op·2^24 + d·2^20 + a·2^16 + b·2^12 + imm` (30_encoding.md R85). -/
theorem wordOf_toNat :
    (wordOf op d a b imm).toNat =
      op.toNat * 2^24 + d.toNat * 2^20 + a.toNat * 2^16 + b.toNat * 2^12 + imm.toNat := by
  have h1 := d.isLt
  have h2 := a.isLt
  have h3 := b.isLt
  have h4 := imm.isLt
  simp only [wordOf, BitVec.toNat_append]
  rw [← Nat.shiftLeft_add_eq_or_of_lt h1, ← Nat.shiftLeft_add_eq_or_of_lt h2,
    ← Nat.shiftLeft_add_eq_or_of_lt h3, ← Nat.shiftLeft_add_eq_or_of_lt h4]
  simp only [Nat.shiftLeft_eq]
  omega

/-- A run of bits of a word, as a number. -/
theorem extract_toNat (w : Word) (k n : Nat) : (w.extractLsb' k n).toNat = w.toNat / 2^k % 2^n := by
  simp [BitVec.extractLsb'_toNat, Nat.shiftRight_eq_div_pow]

@[simp] theorem fieldOp_wordOf : fieldOp (wordOf op d a b imm) = op := by
  apply BitVec.eq_of_toNat_eq
  rw [fieldOp, extract_toNat, wordOf_toNat]
  omega

theorem fieldD_wordOf : fieldD (wordOf op d a b imm) = Fin.ofNat 16 d.toNat := by
  rw [fieldD, extract_toNat, wordOf_toNat]
  congr 1; omega

theorem fieldA_wordOf : fieldA (wordOf op d a b imm) = Fin.ofNat 16 a.toNat := by
  rw [fieldA, extract_toNat, wordOf_toNat]
  congr 1; omega

theorem fieldB_wordOf : fieldB (wordOf op d a b imm) = Fin.ofNat 16 b.toNat := by
  rw [fieldB, extract_toNat, wordOf_toNat]
  congr 1; omega

theorem fieldPairD_wordOf : fieldPairD (wordOf op d a b imm) = Fin.ofNat 8 (d.toNat / 2) := by
  rw [fieldPairD, extract_toNat, wordOf_toNat]
  congr 1; omega

theorem fieldPairA_wordOf : fieldPairA (wordOf op d a b imm) = Fin.ofNat 8 (a.toNat / 2) := by
  rw [fieldPairA, extract_toNat, wordOf_toNat]
  congr 1; omega

theorem fieldPairB_wordOf : fieldPairB (wordOf op d a b imm) = Fin.ofNat 8 (b.toNat / 2) := by
  rw [fieldPairB, extract_toNat, wordOf_toNat]
  congr 1; omega

@[simp] theorem fieldImm12_wordOf : fieldImm12 (wordOf op d a b imm) = imm := by
  apply BitVec.eq_of_toNat_eq
  rw [fieldImm12, extract_toNat, wordOf_toNat]
  omega

theorem fieldSlot_wordOf : fieldSlot (wordOf op d a b imm) = Fin.ofNat 4 (imm.toNat % 4) := by
  rw [fieldSlot, extract_toNat, wordOf_toNat]
  congr 1; omega

theorem fieldSelector_wordOf : fieldSelector (wordOf op d a b imm) = imm.getLsbD 0 := by
  simp only [fieldSelector, BitVec.getLsbD, Nat.testBit_zero, wordOf_toNat]
  congr 1; apply propext; omega

end

@[simp] theorem fieldD_regField (op : BitVec 8) (r : RegIdx) (a b : BitVec 4) (imm : BitVec 12) :
    fieldD (wordOf op (regField r) a b imm) = r := by
  rw [fieldD_wordOf]; revert r; decide

@[simp] theorem fieldA_regField (op : BitVec 8) (r : RegIdx) (d b : BitVec 4) (imm : BitVec 12) :
    fieldA (wordOf op d (regField r) b imm) = r := by
  rw [fieldA_wordOf]; revert r; decide

@[simp] theorem fieldB_regField (op : BitVec 8) (r : RegIdx) (d a : BitVec 4) (imm : BitVec 12) :
    fieldB (wordOf op d a (regField r) imm) = r := by
  rw [fieldB_wordOf]; revert r; decide

@[simp] theorem fieldPairD_pairField (op : BitVec 8) (p : PairIdx) (a b : BitVec 4) (imm : BitVec 12) :
    fieldPairD (wordOf op (pairField p) a b imm) = p := by
  rw [fieldPairD_wordOf]; revert p; decide

@[simp] theorem fieldPairA_pairField (op : BitVec 8) (p : PairIdx) (d b : BitVec 4) (imm : BitVec 12) :
    fieldPairA (wordOf op d (pairField p) b imm) = p := by
  rw [fieldPairA_wordOf]; revert p; decide

@[simp] theorem fieldPairB_pairField (op : BitVec 8) (p : PairIdx) (d a : BitVec 4) (imm : BitVec 12) :
    fieldPairB (wordOf op d a (pairField p) imm) = p := by
  rw [fieldPairB_wordOf]; revert p; decide

@[simp] theorem fieldSlot_slotField (op : BitVec 8) (s : Slot) (d a b : BitVec 4) :
    fieldSlot (wordOf op d a b (slotField s)) = s := by
  rw [fieldSlot_wordOf]; revert s; decide

@[simp] theorem fieldSelector_selectorField (op : BitVec 8) (s : Bool) (d a b : BitVec 4) :
    fieldSelector (wordOf op d a b (selectorField s)) = s := by
  rw [fieldSelector_wordOf]; revert s; decide

end Sys2Proof
end

