-- ==== Sys2Proof/Laws/State.lean ====
section
/-! SUPPORT. One lemma per field per update: what each update of the state leaves alone and what it sets. -/

namespace Sys2Proof.Machine

section
variable (s : State) (i : RegIdx) (v : Elem)

@[simp] theorem setReg_f : (s.setReg i v).f = s.f.set i v := rfl
@[simp] theorem setReg_buf : (s.setReg i v).buf = s.buf := rfl
@[simp] theorem setReg_cmdr : (s.setReg i v).cmdr = s.cmdr := rfl
@[simp] theorem setReg_busy : (s.setReg i v).busy = s.busy := rfl
@[simp] theorem setReg_done : (s.setReg i v).done = s.done := rfl
@[simp] theorem setReg_ill : (s.setReg i v).ill = s.ill := rfl
@[simp] theorem setReg_bacc : (s.setReg i v).bacc = s.bacc := rfl
@[simp] theorem setReg_seqT : (s.setReg i v).seqT = s.seqT := rfl
@[simp] theorem setReg_seqI : (s.setReg i v).seqI = s.seqI := rfl
@[simp] theorem setReg_schedule : (s.setReg i v).schedule = s.schedule := rfl
@[simp] theorem setReg_answers : (s.setReg i v).answers = s.answers := rfl
@[simp] theorem setReg_kbit (n : Nat) : (s.setReg i v).kbit n = s.kbit n := rfl
@[simp] theorem setReg_readSlot (slot : Slot) : (s.setReg i v).readSlot slot = s.readSlot slot := rfl

/-- A register reads as last written; the others are unchanged. No register is hard-wired (10_state.md R21). -/
theorem reg_setReg (j : RegIdx) : (s.setReg i v).reg j = if j = i then v else s.reg j := by
  by_cases h : j = i
  · subst h; simp [State.reg]
  · have : i.val ≠ j.val := fun e => h (Fin.ext e.symm)
    simp [State.reg, h, this]

@[simp] theorem reg_setReg_self : (s.setReg i v).reg i = v := by simp [reg_setReg]

@[simp] theorem reg_setReg_of_ne {i j : RegIdx} (h : j ≠ i) : (s.setReg i v).reg j = s.reg j := by
  simp [reg_setReg, h]

/-- Two states with the same register reads hold the same register file. -/
theorem f_ext {s t : State} (h : ∀ i, s.reg i = t.reg i) : s.f = t.f := by
  apply Vector.ext
  intro i hi
  exact h ⟨i, hi⟩

end

section
variable (s : State) (slot : Slot) (n : Nat)

@[simp] theorem writeSlot_f : (s.writeSlot slot n).f = s.f := by simp only [State.writeSlot]
@[simp] theorem writeSlot_reg (i : RegIdx) : (s.writeSlot slot n).reg i = s.reg i := by simp only [State.writeSlot, State.reg]
@[simp] theorem writeSlot_buf :
    (s.writeSlot slot n).buf = s.buf.writeLE (slotAddr slot) Config.NBYTES n := by simp only [State.writeSlot]
@[simp] theorem writeSlot_cmdr : (s.writeSlot slot n).cmdr = s.cmdr := by simp only [State.writeSlot]
@[simp] theorem writeSlot_busy : (s.writeSlot slot n).busy = s.busy := by simp only [State.writeSlot]
@[simp] theorem writeSlot_done : (s.writeSlot slot n).done = s.done := by simp only [State.writeSlot]
@[simp] theorem writeSlot_ill : (s.writeSlot slot n).ill = s.ill := by simp only [State.writeSlot]
@[simp] theorem writeSlot_bacc : (s.writeSlot slot n).bacc = s.bacc := by simp only [State.writeSlot]
@[simp] theorem writeSlot_seqT : (s.writeSlot slot n).seqT = s.seqT := by simp only [State.writeSlot]
@[simp] theorem writeSlot_seqI : (s.writeSlot slot n).seqI = s.seqI := by simp only [State.writeSlot]
@[simp] theorem writeSlot_schedule : (s.writeSlot slot n).schedule = s.schedule := by simp only [State.writeSlot]
@[simp] theorem writeSlot_answers : (s.writeSlot slot n).answers = s.answers := by simp only [State.writeSlot]

end

section
variable (s : State)

@[simp] theorem doWipe_reg (i : RegIdx) : (doWipe s).reg i = 0#256 := by simp [doWipe, State.reg]
@[simp] theorem doWipe_buf : (doWipe s).buf = [] := rfl
@[simp] theorem doWipe_cmdr : (doWipe s).cmdr = s.cmdr := rfl
@[simp] theorem doWipe_busy : (doWipe s).busy = s.busy := rfl
@[simp] theorem doWipe_done : (doWipe s).done = s.done := rfl
@[simp] theorem doWipe_ill : (doWipe s).ill = s.ill := rfl
@[simp] theorem doWipe_bacc : (doWipe s).bacc = s.bacc := rfl
@[simp] theorem doWipe_seqT : (doWipe s).seqT = s.seqT := rfl
@[simp] theorem doWipe_seqI : (doWipe s).seqI = s.seqI := rfl
@[simp] theorem doWipe_schedule : (doWipe s).schedule = s.schedule := rfl
@[simp] theorem doWipe_answers : (doWipe s).answers = s.answers := rfl

@[simp] theorem raiseIllegalCommand_ill : (raiseIllegalCommand s).ill = true := rfl
@[simp] theorem raiseIllegalCommand_f : (raiseIllegalCommand s).f = s.f := rfl
@[simp] theorem raiseIllegalCommand_buf : (raiseIllegalCommand s).buf = s.buf := rfl
@[simp] theorem raiseIllegalCommand_cmdr : (raiseIllegalCommand s).cmdr = s.cmdr := rfl
@[simp] theorem raiseIllegalCommand_busy : (raiseIllegalCommand s).busy = s.busy := rfl
@[simp] theorem raiseIllegalCommand_done : (raiseIllegalCommand s).done = s.done := rfl
@[simp] theorem raiseIllegalCommand_bacc : (raiseIllegalCommand s).bacc = s.bacc := rfl
@[simp] theorem raiseIllegalCommand_seqT : (raiseIllegalCommand s).seqT = s.seqT := rfl
@[simp] theorem raiseIllegalCommand_seqI : (raiseIllegalCommand s).seqI = s.seqI := rfl
@[simp] theorem raiseIllegalCommand_schedule : (raiseIllegalCommand s).schedule = s.schedule := rfl
@[simp] theorem raiseIllegalCommand_answers : (raiseIllegalCommand s).answers = s.answers := rfl

@[simp] theorem raiseBusyAccess_bacc : (raiseBusyAccess s).bacc = true := rfl
@[simp] theorem raiseBusyAccess_f : (raiseBusyAccess s).f = s.f := rfl
@[simp] theorem raiseBusyAccess_buf : (raiseBusyAccess s).buf = s.buf := rfl
@[simp] theorem raiseBusyAccess_cmdr : (raiseBusyAccess s).cmdr = s.cmdr := rfl
@[simp] theorem raiseBusyAccess_busy : (raiseBusyAccess s).busy = s.busy := rfl
@[simp] theorem raiseBusyAccess_done : (raiseBusyAccess s).done = s.done := rfl
@[simp] theorem raiseBusyAccess_ill : (raiseBusyAccess s).ill = s.ill := rfl
@[simp] theorem raiseBusyAccess_seqT : (raiseBusyAccess s).seqT = s.seqT := rfl
@[simp] theorem raiseBusyAccess_seqI : (raiseBusyAccess s).seqI = s.seqI := rfl
@[simp] theorem raiseBusyAccess_schedule : (raiseBusyAccess s).schedule = s.schedule := rfl
@[simp] theorem raiseBusyAccess_answers : (raiseBusyAccess s).answers = s.answers := rfl

variable (w : Word)

@[simp] theorem clearFlags_f : (clearFlags w s).f = s.f := rfl
@[simp] theorem clearFlags_buf : (clearFlags w s).buf = s.buf := rfl
@[simp] theorem clearFlags_cmdr : (clearFlags w s).cmdr = s.cmdr := rfl
@[simp] theorem clearFlags_busy : (clearFlags w s).busy = s.busy := rfl
@[simp] theorem clearFlags_done : (clearFlags w s).done = (s.done && !w.getLsbD 1) := rfl
@[simp] theorem clearFlags_ill : (clearFlags w s).ill = (s.ill && !w.getLsbD 2) := rfl
@[simp] theorem clearFlags_bacc : (clearFlags w s).bacc = (s.bacc && !w.getLsbD 3) := rfl
@[simp] theorem clearFlags_seqT : (clearFlags w s).seqT = s.seqT := rfl
@[simp] theorem clearFlags_seqI : (clearFlags w s).seqI = s.seqI := rfl
@[simp] theorem clearFlags_schedule : (clearFlags w s).schedule = s.schedule := rfl
@[simp] theorem clearFlags_answers : (clearFlags w s).answers = s.answers := rfl

@[simp] theorem acceptCommand_f : (acceptCommand w s).f = s.f := rfl
@[simp] theorem acceptCommand_buf : (acceptCommand w s).buf = s.buf := rfl
@[simp] theorem acceptCommand_cmdr : (acceptCommand w s).cmdr = w := rfl
@[simp] theorem acceptCommand_busy : (acceptCommand w s).busy = true := rfl
@[simp] theorem acceptCommand_done : (acceptCommand w s).done = false := rfl
@[simp] theorem acceptCommand_ill : (acceptCommand w s).ill = s.ill := rfl
@[simp] theorem acceptCommand_bacc : (acceptCommand w s).bacc = s.bacc := rfl
@[simp] theorem acceptCommand_seqT : (acceptCommand w s).seqT = s.seqT := rfl
@[simp] theorem acceptCommand_seqI : (acceptCommand w s).seqI = s.seqI := rfl
@[simp] theorem acceptCommand_schedule : (acceptCommand w s).schedule = s.schedule := rfl
@[simp] theorem acceptCommand_answers : (acceptCommand w s).answers = s.answers := rfl

@[simp] theorem markDone_f : (markDone s).f = s.f := rfl
@[simp] theorem markDone_reg (i : RegIdx) : (markDone s).reg i = s.reg i := rfl
@[simp] theorem markDone_buf : (markDone s).buf = s.buf := rfl
@[simp] theorem markDone_cmdr : (markDone s).cmdr = s.cmdr := rfl
@[simp] theorem markDone_busy : (markDone s).busy = false := rfl
@[simp] theorem markDone_done : (markDone s).done = true := rfl
@[simp] theorem markDone_ill : (markDone s).ill = s.ill := rfl
@[simp] theorem markDone_bacc : (markDone s).bacc = s.bacc := rfl
@[simp] theorem markDone_seqT : (markDone s).seqT = s.seqT := rfl
@[simp] theorem markDone_seqI : (markDone s).seqI = s.seqI := rfl
@[simp] theorem markDone_schedule : (markDone s).schedule = s.schedule := rfl
@[simp] theorem markDone_answers : (markDone s).answers = s.answers := rfl

@[simp] theorem resetUnit_f : (resetUnit s).f = Vector.replicate 16 0#256 := rfl
@[simp] theorem resetUnit_reg (i : RegIdx) : (resetUnit s).reg i = 0#256 := by simp [State.reg]
@[simp] theorem resetUnit_buf : (resetUnit s).buf = [] := rfl
@[simp] theorem resetUnit_cmdr : (resetUnit s).cmdr = 0#32 := rfl
@[simp] theorem resetUnit_busy : (resetUnit s).busy = false := rfl
@[simp] theorem resetUnit_done : (resetUnit s).done = false := rfl
@[simp] theorem resetUnit_ill : (resetUnit s).ill = false := rfl
@[simp] theorem resetUnit_bacc : (resetUnit s).bacc = false := rfl
@[simp] theorem resetUnit_seqT : (resetUnit s).seqT = false := rfl
@[simp] theorem resetUnit_seqI : (resetUnit s).seqI = 0#8 := rfl
@[simp] theorem resetUnit_schedule : (resetUnit s).schedule = s.schedule := rfl
@[simp] theorem resetUnit_answers : (resetUnit s).answers = s.answers := rfl

end

end Sys2Proof.Machine
end

