-- ==== Sys2Proof/Laws/Memory.lean ====
section
/-! SUPPORT. The laws of the buffer memory: reads after writes, and that every operation keeps the canonical form. -/

namespace Sys2Proof.Machine.Memory

theorem wf_reset : wf State.reset.buf := by decide

theorem wf_nil : wf [] := by decide

theorem wf_cons {c : Host.Cell} {m : Memory} :
    wf (c :: m) ↔ (∀ d ∈ m, c.1 < d.1) ∧ (c.1 < Config.BUFBYTES ∧ c.2 ≠ 0#8) ∧ wf m := by
  simp only [wf, List.pairwise_cons, List.forall_mem_cons]
  tauto

/-- An address below every listed one reads as 0. -/
theorem read_of_lt : ∀ {m : Memory} {a : Nat}, (∀ d ∈ m, a < d.1) → m.read a = 0#8
  | [], _, _ => rfl
  | (b, w) :: m, a, h => by
    have hb : a < b := h (b, w) (by simp)
    simp only [read, Nat.ne_of_gt hb, if_false]
    exact read_of_lt fun d hd => h d (by simp [hd])

/-- A write leaves every other address alone (whatever the form of the list). -/
theorem read_write_of_ne : ∀ (m : Memory) {a b : Nat} (v : Byte), b ≠ a → (m.write a v).read b = m.read b
  | [], a, b, v, h => by
    by_cases hv : v = 0#8 <;> simp [write, read, hv, h.symm]
  | (c, w) :: m, a, b, v, h => by
    rcases Nat.lt_trichotomy c a with hc | hc | hc
    · simp [write, hc, read, read_write_of_ne m v h]
    · subst hc
      by_cases hv : v = 0#8 <;> simp [write, hv, read, h.symm]
    · have h1 : ¬ c < a := by omega
      have h2 : c ≠ a := by omega
      by_cases hv : v = 0#8 <;> simp [write, h1, h2, hv, read, h.symm]

/-- In canonical form, a write is read back. -/
theorem read_write_self : ∀ {m : Memory} (a : Nat) (v : Byte), wf m → (m.write a v).read a = v
  | [], a, v, _ => by
    by_cases hv : v = 0#8 <;> simp [write, read, hv]
  | (c, w) :: m, a, v, h => by
    obtain ⟨h1, _, hm⟩ := wf_cons.1 h
    rcases Nat.lt_trichotomy c a with hc | hc | hc
    · have : c ≠ a := by omega
      simp [write, hc, read, this, read_write_self a v hm]
    · subst hc
      by_cases hv : v = 0#8
      · simp [write, hv, read_of_lt h1]
      · simp [write, hv, read]
    · have h2 : ¬ c < a := by omega
      have h3 : c ≠ a := by omega
      by_cases hv : v = 0#8
      · simp only [write, h2, h3, hv, if_false, if_true]
        refine read_of_lt fun d hd => ?_
        rcases List.mem_cons.1 hd with rfl | hd
        · exact hc
        · have := h1 d hd; omega
      · simp [write, h2, h3, hv, read]

theorem mem_write : ∀ {m : Memory} {a : Nat} {v : Byte} {d : Host.Cell},
    d ∈ m.write a v → d ∈ m ∨ (d = (a, v) ∧ v ≠ 0#8)
  | [], a, v, d, h => by
    by_cases hv : v = 0#8 <;> simp_all [write]
  | (c, w) :: m, a, v, d, h => by
    simp only [write] at h
    split at h
    · rcases List.mem_cons.1 h with rfl | h
      · simp
      · rcases mem_write h with h | h
        · simp [h]
        · exact .inr h
    · split at h <;> split at h <;> simp_all <;> tauto

/-- A write inside BUF keeps the canonical form. -/
theorem wf_write : ∀ {m : Memory} {a : Nat} (v : Byte), wf m → a < Config.BUFBYTES → wf (m.write a v)
  | [], a, v, _, ha => by
    by_cases hv : v = 0#8
    · simpa [write, hv] using wf_nil
    · simp only [write, hv, if_false]
      exact wf_cons.2 ⟨by simp, ⟨ha, hv⟩, wf_nil⟩
  | (c, w) :: m, a, v, h, ha => by
    obtain ⟨h1, h2, hm⟩ := wf_cons.1 h
    simp only [write]
    split
    · next hc =>
      refine wf_cons.2 ⟨fun d hd => ?_, h2, wf_write v hm ha⟩
      rcases mem_write hd with hd | ⟨rfl, -⟩
      · exact h1 d hd
      · exact hc
    · split
      · next hc hca =>
        subst hca
        split
        · exact hm
        · next hv => exact wf_cons.2 ⟨h1, ⟨ha, hv⟩, hm⟩
      · next hc hca =>
        split
        · exact h
        · next hv =>
          refine wf_cons.2 ⟨fun d hd => ?_, ⟨ha, hv⟩, h⟩
          have hca : a < c := by omega
          rcases List.mem_cons.1 hd with rfl | hd
          · exact hca
          · exact Nat.lt_trans hca (h1 d hd)

/-- A wide write inside BUF keeps the canonical form. -/
theorem wf_writeLE : ∀ (n : Nat) {m : Memory} {a : Nat} (v : Nat), wf m → a + n ≤ Config.BUFBYTES →
    wf (m.writeLE a n v)
  | 0, _, _, _, h, _ => h
  | n + 1, _, a, v, h, ha => wf_writeLE n _ (wf_write _ h (by omega)) (by omega)

/-- A wide write leaves every address outside its bytes alone. -/
theorem read_writeLE_of_outside : ∀ (n : Nat) (m : Memory) {a b : Nat} (v : Nat), (b < a ∨ a + n ≤ b) →
    (m.writeLE a n v).read b = m.read b
  | 0, _, _, _, _, _ => rfl
  | n + 1, m, a, b, v, h => by
    rw [writeLE, read_writeLE_of_outside n _ _ (by omega), read_write_of_ne _ _ (by omega)]

/-- `BUF[a+t] <- v[8t+7 : 8t]` (20_memory.md R54). -/
theorem read_writeLE : ∀ (n : Nat) {m : Memory} {a t : Nat} (v : Nat), wf m → a + n ≤ Config.BUFBYTES → t < n →
    (m.writeLE a n v).read (a + t) = BitVec.ofNat 8 (v / 2^(8 * t))
  | n + 1, m, a, 0, v, h, ha, _ => by
    rw [writeLE, read_writeLE_of_outside n _ _ (by omega), Nat.add_zero, read_write_self _ _ h]
    simp
  | n + 1, m, a, t + 1, v, h, ha, ht => by
    have key := read_writeLE n (m := m.write a (BitVec.ofNat 8 v)) (a := a + 1) (t := t) (v / 2^8)
      (wf_write _ h (by omega)) (by omega) (by omega)
    rw [writeLE, show a + (t + 1) = a + 1 + t by omega, key, Nat.div_div_eq_div_mul, ← pow_add]
    congr 3; omega

/-- A wide read depends on its bytes only. -/
theorem readLE_congr : ∀ (n : Nat) {m m' : Memory} {a : Nat}, (∀ t < n, m.read (a + t) = m'.read (a + t)) →
    m.readLE a n = m'.readLE a n
  | 0, _, _, _, _ => rfl
  | n + 1, m, m', a, h => by
    have h0 := h 0 (by omega)
    have hs := readLE_congr n (m := m) (m' := m') (a := a + 1) fun t ht => by
      have := h (t + 1) (by omega)
      rwa [show a + (t + 1) = a + 1 + t by omega] at this
    simp only [Nat.add_zero] at h0
    rw [readLE, readLE, h0, hs]

theorem readLE_lt : ∀ (n : Nat) (m : Memory) (a : Nat), m.readLE a n < 2^(8 * n)
  | 0, _, _ => by simp [readLE]
  | n + 1, m, a => by
    have h1 := (m.read a).isLt
    have h2 := readLE_lt n m (a + 1)
    rw [readLE, show 8 * (n + 1) = 8 + 8 * n by omega, pow_add]
    nlinarith

/-- A wide write is read back, to its width (20_memory.md R53, R54). -/
theorem readLE_writeLE : ∀ (n : Nat) {m : Memory} {a : Nat} (v : Nat), wf m → a + n ≤ Config.BUFBYTES →
    (m.writeLE a n v).readLE a n = v % 2^(8 * n)
  | 0, _, _, _, _, _ => by simp [readLE, Nat.mod_one]
  | n + 1, m, a, v, h, ha => by
    have hw := wf_write (BitVec.ofNat 8 v) h (show a < Config.BUFBYTES by omega)
    have h0 : ((m.write a (BitVec.ofNat 8 v)).writeLE (a + 1) n (v / 2^8)).read a = BitVec.ofNat 8 v := by
      rw [read_writeLE_of_outside n _ _ (by omega), read_write_self _ _ h]
    rw [writeLE, readLE, h0, readLE_writeLE n _ hw (by omega), show 8 * (n + 1) = 8 + 8 * n by omega, pow_add,
      Nat.mod_mul]
    simp

end Sys2Proof.Machine.Memory
end

