-- ==== Sys2Proof/Laws/Micro.lean ====
section
/-! SUPPORT. What a line and a sequence of lines can do, and every command as its lines. -/

namespace Sys2Proof.Machine

@[simp] theorem runMicro_nil (s : State) : runMicro [] s = s := rfl

@[simp] theorem runMicro_cons (m : Micro) (ms : List Micro) (s : State) :
    runMicro (m :: ms) s = runMicro ms (m.run s) := rfl

@[simp] theorem runMicro_append (ms ns : List Micro) (s : State) :
    runMicro (ms ++ ns) s = runMicro ns (runMicro ms s) := by simp [runMicro]

/-- A property that every line keeps is kept by a sequence. -/
theorem runMicro_induction {p : State → Prop} (h : ∀ (m : Micro) (s : State), p s → p (m.run s)) :
    ∀ (ms : List Micro) (s : State), p s → p (runMicro ms s)
  | [], _, hs => hs
  | m :: ms, s, hs => runMicro_induction h ms _ (h m s hs)

/-- A line changes `f`, BUF and the sequencer registers at most. -/
theorem run_sameOutside (m : Micro) (s : State) : SameOutside s (m.run s) := by
  cases m <;>
    simp [SameOutside, Micro.run, doFadd, doFsub, doFmul, doFsqr, doFmuls, doFmul2, doFsqr2, doFmov, doFseti, doCswap, doCswap2,
      doFdec, doFldr, doFenc, doFstr, doLadderStart, doLadderSwap, doLadderNext, doLadderUnswap, doLadderEnd]

/-- A sequence of lines changes `f`, BUF and the sequencer registers at most. -/
theorem runMicro_sameOutside (ms : List Micro) (s : State) : SameOutside s (runMicro ms s) := by
  induction ms generalizing s with
  | nil => simp [SameOutside]
  | cons m ms ih =>
    obtain ⟨h1, h2, h3, h4, h5, h6, h7⟩ := run_sameOutside m s
    obtain ⟨k1, k2, k3, k4, k5, k6, k7⟩ := ih (m.run s)
    exact ⟨k1.trans h1, k2.trans h2, k3.trans h3, k4.trans h4, k5.trans h5, k6.trans h6, k7.trans h7⟩

theorem slot_inside (slot : Slot) : slotAddr slot + Config.NBYTES ≤ Config.BUFBYTES := by
  have := slot.isLt
  simp only [slotAddr, Config.NBYTES, Config.BUFBYTES]
  omega

/-- A write to a slot keeps the canonical form of BUF. -/
theorem writeSlot_wf (s : State) (slot : Slot) (v : Nat) (h : Memory.wf s.buf) :
    Memory.wf (s.writeSlot slot v).buf := by
  rw [writeSlot_buf]
  exact Memory.wf_writeLE _ _ h (slot_inside slot)

/-- What each line does to BUF: a store writes one slot, WIPE clears it, every other line leaves it. -/
theorem run_buf (m : Micro) (s : State) :
    (m.run s).buf = match m with
      | .fenc slot r => (s.writeSlot slot (canon (s.reg r).toNat)).buf
      | .fstr slot r => (s.writeSlot slot (s.reg r).toNat).buf
      | .wipe => []
      | _ => s.buf := by
  cases m <;>
    simp [Micro.run, doFadd, doFsub, doFmul, doFsqr, doFmuls, doFmul2, doFsqr2, doFmov, doFseti, doCswap, doCswap2,
      doFdec, doFldr, doFenc, doFstr, doLadderStart, doLadderSwap, doLadderNext, doLadderUnswap, doLadderEnd]

/-- A line keeps the canonical form of BUF. -/
theorem run_wf (m : Micro) (s : State) (h : Memory.wf s.buf) : Memory.wf (m.run s).buf := by
  rw [run_buf]
  split
  · exact writeSlot_wf s _ _ h
  · exact writeSlot_wf s _ _ h
  · exact Memory.wf_nil
  · exact h

/-- A sequence of lines keeps the canonical form of BUF. -/
theorem runMicro_wf (ms : List Micro) (s : State) (h : Memory.wf s.buf) : Memory.wf (runMicro ms s).buf :=
  runMicro_induction (p := fun s => Memory.wf s.buf) run_wf ms s h

/-- Every command runs, and its effect is that of its lines (70_reset_and_hazards.md R240). -/
theorem exec_eq_runMicro (i : Instr) (s : State) : exec i s = .next (runMicro (linesOf i) s) := by
  cases i <;> rfl

end Sys2Proof.Machine
end

