-- ==== Sys2Proof/Laws/PerInstr.lean ====
section
/-! SUPPORT. The family FieldsSurvive, one lemma per command: the opcode field of a command's encoding finds the row that
reads the command back, with every operand, from the encoded word (30_encoding.md R84, R85). The round trip of the decoder
adds the row's mask and FINV's source check to it. -/

namespace Sys2Proof.Laws.FieldsSurvive

/-- The row with the encoded opcode reads the operands back from the encoded word. -/
def Statement (i : Instr) : Prop :=
  ∃ r, rowFor (fieldOp (encode i)) = some r ∧ Op.build (encode i) r.op = i

theorem nop : Statement .nop :=
  ⟨⟨.nop, 0xFFFFFFFF, 0x00000000⟩, by simp only [encode, fieldOp_wordOf]; decide, by simp [Op.build]⟩

theorem fadd (d a b : RegIdx) : Statement (.fadd d a b) :=
  ⟨⟨.fadd, 0xFF000FFF, 0x01000000⟩, by simp only [encode, fieldOp_wordOf]; decide, by simp [encode, Op.build]⟩

theorem fsub (d a b : RegIdx) : Statement (.fsub d a b) :=
  ⟨⟨.fsub, 0xFF000FFF, 0x02000000⟩, by simp only [encode, fieldOp_wordOf]; decide, by simp [encode, Op.build]⟩

theorem fmul (d a b : RegIdx) : Statement (.fmul d a b) :=
  ⟨⟨.fmul, 0xFF000FFF, 0x03000000⟩, by simp only [encode, fieldOp_wordOf]; decide, by simp [encode, Op.build]⟩

theorem fsqr (d a : RegIdx) : Statement (.fsqr d a) :=
  ⟨⟨.fsqr, 0xFF00FFFF, 0x04000000⟩, by simp only [encode, fieldOp_wordOf]; decide, by simp [encode, Op.build]⟩

theorem fmuls (d a : RegIdx) : Statement (.fmuls d a) :=
  ⟨⟨.fmuls, 0xFF00FFFF, 0x05000000⟩, by simp only [encode, fieldOp_wordOf]; decide, by simp [encode, Op.build]⟩

theorem fmul2 (d a b : PairIdx) : Statement (.fmul2 d a b) :=
  ⟨⟨.fmul2, 0xFF111FFF, 0x06000000⟩, by simp only [encode, fieldOp_wordOf]; decide, by simp [encode, Op.build]⟩

theorem fsqr2 (d a : PairIdx) : Statement (.fsqr2 d a) :=
  ⟨⟨.fsqr2, 0xFF11FFFF, 0x07000000⟩, by simp only [encode, fieldOp_wordOf]; decide, by simp [encode, Op.build]⟩

theorem cswap (a b : RegIdx) (s : Bool) : Statement (.cswap a b s) :=
  ⟨⟨.cswap, 0xFFF00FFE, 0x08000000⟩, by simp only [encode, fieldOp_wordOf]; decide, by simp [encode, Op.build]⟩

theorem cswap2 (a b : PairIdx) (s : Bool) : Statement (.cswap2 a b s) :=
  ⟨⟨.cswap2, 0xFFF11FFE, 0x09000000⟩, by simp only [encode, fieldOp_wordOf]; decide, by simp [encode, Op.build]⟩

theorem fmov (d a : RegIdx) : Statement (.fmov d a) :=
  ⟨⟨.fmov, 0xFF00FFFF, 0x0A000000⟩, by simp only [encode, fieldOp_wordOf]; decide, by simp [encode, Op.build]⟩

theorem fseti (d : RegIdx) (imm : BitVec 12) : Statement (.fseti d imm) :=
  ⟨⟨.fseti, 0xFF0FF000, 0x0B000000⟩, by simp only [encode, fieldOp_wordOf]; decide, by simp [encode, Op.build]⟩

theorem padbl : Statement .padbl :=
  ⟨⟨.padbl, 0xFFFFFFFF, 0x10000000⟩, by simp only [encode, fieldOp_wordOf]; decide, by simp [Op.build]⟩

theorem pdbl : Statement .pdbl :=
  ⟨⟨.pdbl, 0xFFFFFFFF, 0x11000000⟩, by simp only [encode, fieldOp_wordOf]; decide, by simp [Op.build]⟩

theorem finv (d a : RegIdx) : Statement (.finv d a) :=
  ⟨⟨.finv, 0xFF00FFFF, 0x12000000⟩, by simp only [encode, fieldOp_wordOf]; decide, by simp [encode, Op.build]⟩

theorem ladder : Statement .ladder :=
  ⟨⟨.ladder, 0xFFFFFFFF, 0x13000000⟩, by simp only [encode, fieldOp_wordOf]; decide, by simp [Op.build]⟩

theorem x25519 : Statement .x25519 :=
  ⟨⟨.x25519, 0xFFFFFFFF, 0x14000000⟩, by simp only [encode, fieldOp_wordOf]; decide, by simp [Op.build]⟩

theorem fdec (d : RegIdx) (slot : Slot) : Statement (.fdec d slot) :=
  ⟨⟨.fdec, 0xFF0FFFFC, 0x18000000⟩, by simp only [encode, fieldOp_wordOf]; decide, by simp [encode, Op.build]⟩

theorem fldr (d : RegIdx) (slot : Slot) : Statement (.fldr d slot) :=
  ⟨⟨.fldr, 0xFF0FFFFC, 0x19000000⟩, by simp only [encode, fieldOp_wordOf]; decide, by simp [encode, Op.build]⟩

theorem fenc (slot : Slot) (r : RegIdx) : Statement (.fenc slot r) :=
  ⟨⟨.fenc, 0xFF0FFFFC, 0x1A000000⟩, by simp only [encode, fieldOp_wordOf]; decide, by simp [encode, Op.build]⟩

theorem fstr (slot : Slot) (r : RegIdx) : Statement (.fstr slot r) :=
  ⟨⟨.fstr, 0xFF0FFFFC, 0x1B000000⟩, by simp only [encode, fieldOp_wordOf]; decide, by simp [encode, Op.build]⟩

theorem wipe : Statement .wipe :=
  ⟨⟨.wipe, 0xFFFFFFFF, 0x1F000000⟩, by simp only [encode, fieldOp_wordOf]; decide, by simp [Op.build]⟩

end Sys2Proof.Laws.FieldsSurvive
end

