-- ==== Sys2Proof/Laws/Prime.lean ====
section
/-! SUPPORT. 2^255 - 19 (00_scope.md R8) is prime, by Lucas certificates down to primes below one million; so there are fields
in which P is 0. -/

namespace Sys2Proof.Laws

/-- `b^e mod m` for `e < 2^k`, by repeated squaring. -/
def powMod (m : ℕ) : ℕ → ℕ → ℕ → ℕ
  | _, 0, _ => 1 % m
  | b, k + 1, e => if e % 2 = 1 then b * powMod m (b * b % m) k (e / 2) % m else powMod m (b * b % m) k (e / 2)

theorem powMod_cast (m : ℕ) : ∀ (k b e : ℕ), e < 2^k → ((powMod m b k e : ℕ) : ZMod m) = (b : ZMod m)^e
  | 0, b, e, h => by
    have : e = 0 := by omega
    subst this
    simp [powMod]
  | k + 1, b, e, h => by
    have ih := powMod_cast m k (b * b % m) (e / 2) (by omega)
    have he : (b : ZMod m)^e = (b : ZMod m)^(e % 2) * ((b : ZMod m) * b)^(e / 2) := by
      rw [← pow_two, ← pow_mul, ← pow_add, Nat.mod_add_div]
    rw [ZMod.natCast_mod, Nat.cast_mul] at ih
    rcases Nat.mod_two_eq_zero_or_one e with h2 | h2 <;> simp [powMod, h2, he, ih]

/-- Lucas's test, its powers computed: `fs` are the prime factors of `p - 1`. -/
theorem prime_of_factors {p : ℕ} (g : ℕ) (fs : List ℕ) (hp : 1 < p ∧ p < 2^256) (hprod : fs.prod = p - 1)
    (hfs : ∀ q ∈ fs, q.Prime) (h1 : powMod p g 256 (p - 1) = 1)
    (h2 : ∀ q ∈ fs, powMod p g 256 ((p - 1) / q) ≠ 1 ∧ powMod p g 256 ((p - 1) / q) < p) : p.Prime := by
  apply lucas_primality p (g : ZMod p)
  · rw [← powMod_cast p 256 g _ (by omega), h1, Nat.cast_one]
  · intro q hq hd
    rw [← hprod] at hd
    obtain ⟨a, ha, hqa⟩ := (Nat.Prime.prime hq).dvd_prod_iff.1 hd
    obtain rfl := (Nat.prime_dvd_prime_iff_eq hq (hfs a ha)).1 hqa
    obtain ⟨hne, hlt⟩ := h2 q ha
    have hle : (p - 1) / q ≤ p - 1 := Nat.div_le_self _ _
    rw [← powMod_cast p 256 g _ (by omega)]
    intro h
    apply hne
    have h : ((powMod p g 256 ((p - 1) / q) : ℕ) : ZMod p) = ((1 : ℕ) : ZMod p) := by simpa using h
    have := (ZMod.natCast_eq_natCast_iff' _ _ _).1 h
    rwa [Nat.mod_eq_of_lt hlt, Nat.mod_eq_of_lt hp.1] at this

theorem prime_2773320623 : Nat.Prime 2773320623 :=
  prime_of_factors 5 [2, 2437, 569003]
    (by decide) (by decide)
    (by simp only [List.forall_mem_cons]; and_intros <;> norm_num)
    (by decide +kernel) (by decide +kernel)

theorem prime_72106336199 : Nat.Prime 72106336199 :=
  prime_of_factors 7 [2, 13, 2773320623]
    (by decide) (by decide)
    (by simp only [List.forall_mem_cons]; and_intros <;> first | exact prime_2773320623 | norm_num)
    (by decide +kernel) (by decide +kernel)

theorem prime_8574133 : Nat.Prime 8574133 := by norm_num

theorem prime_1919519569386763 : Nat.Prime 1919519569386763 :=
  prime_of_factors 2 [2, 3, 7, 19, 47, 47, 127, 8574133]
    (by decide) (by decide)
    (by simp only [List.forall_mem_cons]; and_intros <;> first | exact prime_8574133 | norm_num)
    (by decide +kernel) (by decide +kernel)

theorem prime_31757755568855353 : Nat.Prime 31757755568855353 :=
  prime_of_factors 10 [2, 2, 2, 3, 31, 107, 223, 4153, 430751]
    (by decide) (by decide)
    (by simp only [List.forall_mem_cons]; and_intros <;> norm_num)
    (by decide +kernel) (by decide +kernel)

theorem prime_75445702479781427272750846543864801 : Nat.Prime 75445702479781427272750846543864801 :=
  prime_of_factors 7 [2, 2, 2, 2, 2, 3, 3, 5, 5, 75707, 72106336199, 1919519569386763]
    (by decide) (by decide)
    (by simp only [List.forall_mem_cons]; and_intros <;> first
      | exact prime_72106336199 | exact prime_1919519569386763 | norm_num)
    (by decide +kernel) (by decide +kernel)

theorem prime_74058212732561358302231226437062788676166966415465897661863160754340907 :
    Nat.Prime 74058212732561358302231226437062788676166966415465897661863160754340907 :=
  prime_of_factors 2 [2, 3, 353, 57467, 132049, 1923133, 31757755568855353, 75445702479781427272750846543864801]
    (by decide) (by decide)
    (by simp only [List.forall_mem_cons]; and_intros <;> first
      | exact prime_31757755568855353 | exact prime_75445702479781427272750846543864801 | norm_num)
    (by decide +kernel) (by decide +kernel)

/-- The field prime is prime. -/
theorem prime_P : Nat.Prime Config.P :=
  prime_of_factors 2 [2, 2, 3, 65147, 74058212732561358302231226437062788676166966415465897661863160754340907]
    (by decide) (by decide)
    (by simp only [List.forall_mem_cons]; and_intros <;> first
      | exact prime_74058212732561358302231226437062788676166966415465897661863160754340907 | norm_num)
    (by decide +kernel) (by decide +kernel)

end Sys2Proof.Laws
end

