-- ==== Sys2Proof/Laws/Step.lean ====
section
/-! SUPPORT. Everything one step can do, said once. -/

namespace Sys2Proof.Machine

/-- Taking a turn touches the schedule only. -/
theorem takeTurn_state (s : State) : (takeTurn s).2 = { s with schedule := (takeTurn s).2.schedule } := by
  unfold takeTurn
  split <;> rfl

@[simp] theorem takeTurn_f (s : State) : (takeTurn s).2.f = s.f := by rw [takeTurn_state]
@[simp] theorem takeTurn_buf (s : State) : (takeTurn s).2.buf = s.buf := by rw [takeTurn_state]
@[simp] theorem takeTurn_cmdr (s : State) : (takeTurn s).2.cmdr = s.cmdr := by rw [takeTurn_state]
@[simp] theorem takeTurn_busy (s : State) : (takeTurn s).2.busy = s.busy := by rw [takeTurn_state]
@[simp] theorem takeTurn_done (s : State) : (takeTurn s).2.done = s.done := by rw [takeTurn_state]
@[simp] theorem takeTurn_ill (s : State) : (takeTurn s).2.ill = s.ill := by rw [takeTurn_state]
@[simp] theorem takeTurn_bacc (s : State) : (takeTurn s).2.bacc = s.bacc := by rw [takeTurn_state]
@[simp] theorem takeTurn_seqT (s : State) : (takeTurn s).2.seqT = s.seqT := by rw [takeTurn_state]
@[simp] theorem takeTurn_seqI (s : State) : (takeTurn s).2.seqI = s.seqI := by rw [takeTurn_state]
@[simp] theorem takeTurn_answers (s : State) : (takeTurn s).2.answers = s.answers := by rw [takeTurn_state]

/-- A completion that answers a next state ran the command CMDR spells (10_state.md R33). -/
theorem complete_cases {s t : State} (h : complete s = .next t) :
    ∃ i, decode s.cmdr = .ok i ∧ t = markDone (runMicro (linesOf i) s) := by
  unfold complete at h
  split at h
  · cases h
  · next i hi => exact ⟨i, hi, by simpa [exec_eq_runMicro] using h.symm⟩

/-- Everything a step that answers a next state can have been: a host access, a reset, an idle turn of the unit, or the
completion of the command CMDR spells. -/
theorem step_cases {s t : State} (h : step s = .next t) :
    (∃ a, (takeTurn s).1 = .host a ∧ t = hostAccess a (takeTurn s).2) ∨
    ((takeTurn s).1 = .reset ∧ t = resetUnit (takeTurn s).2) ∨
    ((takeTurn s).1 = .unit ∧ s.busy = false ∧ t = (takeTurn s).2) ∨
    ((takeTurn s).1 = .unit ∧ s.busy = true ∧
      ∃ i, decode s.cmdr = .ok i ∧ t = markDone (runMicro (linesOf i) (takeTurn s).2)) := by
  unfold step at h
  split at h
  · next a s' e => exact .inl ⟨a, by rw [e], by rw [e]; exact (Host.Outcome.next.inj h).symm⟩
  · next s' e => exact .inr (.inl ⟨by rw [e], by rw [e]; exact (Host.Outcome.next.inj h).symm⟩)
  · next s' e =>
    have hs : s' = (takeTurn s).2 := by rw [e]
    subst hs
    have e1 : (takeTurn s).1 = .unit := by rw [e]
    unfold unitTurn at h
    split at h
    · next hb =>
      obtain ⟨i, hi, ht⟩ := complete_cases h
      exact .inr (.inr (.inr ⟨e1, by simpa using hb, i, by simpa using hi, ht⟩))
    · next hb =>
      exact .inr (.inr (.inl ⟨e1, by simpa using hb, (Host.Outcome.next.inj h).symm⟩))

/-- The three things an issue step can do (10_state.md R32). -/
theorem issue_cases (w : Word) (s : State) :
    (s.busy = true ∧ issue w s = raiseBusyAccess s) ∨
    (s.busy = false ∧ legal w = true ∧ issue w s = acceptCommand w s) ∨
    (s.busy = false ∧ legal w = false ∧ issue w s = raiseIllegalCommand s) := by
  unfold issue
  cases hb : s.busy <;> cases hl : legal w <;> simp

/-- A write into the register window changes registers only. -/
theorem setWindowLE_eq : ∀ (n : Nat) (s : State) (k v : Nat), s.setWindowLE k n v = { s with f := (s.setWindowLE k n v).f }
  | 0, _, _, _ => rfl
  | n + 1, s, k, v => by
    have e : s.setWindowLE k (n + 1) v =
        (s.setWindowByte k (BitVec.ofNat 8 v)).setWindowLE (k + 1) n (v / 2^8) := by simp only [State.setWindowLE]
    refine e.trans ((setWindowLE_eq n _ _ _).trans ?_)
    simp only [e, State.setWindowByte, State.setReg]

/-- The bytes of a host access that reaches the BUF window lie in BUF (20_memory.md R56, R59). -/
theorem hostTarget_bufWindow {addr : BitVec 10} {width : HostWidth} {a : Nat}
    (h : hostTarget addr width = .bufWindow a) : a + width.bytes ≤ Config.BUFBYTES := by
  simp only [hostTarget] at h
  split at h
  · cases h
  · split at h
    · cases h
    · split at h
      · injection h with h; simp only [Config.BUFBYTES]; omega
      · split at h <;> cases h

end Sys2Proof.Machine
end

