-- ==== Sys2Proof/Tests/Slice0.lean ====
section
/-! SUPPORT. The model's own tests: the WellFormed smoke tests, the decoding of words written out field by field from the
spec, one-step tests on the spec's worked values, and a witness for the hypotheses of every statement that has any. -/

namespace Sys2Proof.Tests

open Sys2Proof.Machine

-- One test at a time: many tests waiting for one another would each hold a thread.
set_option Elab.async false

/-! ### WellFormed: every source FINV may not have is refused (30_encoding.md R101 item 4; 44_inversion.md R184) -/

theorem test_wellFormed_refuses_finv_f6 : ¬ (Instr.finv 1 6).WellFormed := by decide
theorem test_wellFormed_refuses_finv_f7 : ¬ (Instr.finv 1 7).WellFormed := by decide
theorem test_wellFormed_refuses_finv_f8 : ¬ (Instr.finv 1 8).WellFormed := by decide
theorem test_wellFormed_refuses_finv_f9 : ¬ (Instr.finv 1 9).WellFormed := by decide
theorem test_wellFormed_takes_finv_f5_and_f10 : (Instr.finv 6 5).WellFormed ∧ (Instr.finv 9 10).WellFormed := by decide

/-! ### Decoding: one word per command, its fields op, d, a, b, imm written out from 30_encoding.md R81 and R84 -/

/-- A word from its five fields as the spec numbers them: op 31:24, d 23:20, a 19:16, b 15:12, imm 11:0 (R81). -/
def fields (op : BitVec 8) (d a b : BitVec 4) (imm : BitVec 12) : Word :=
  op.zeroExtend 32 <<< 24 ||| d.zeroExtend 32 <<< 20 ||| a.zeroExtend 32 <<< 16 ||| b.zeroExtend 32 <<< 12 |||
    imm.zeroExtend 32

theorem test_decode_nop : decode (fields 0b00000000 0b0000 0b0000 0b0000 0b000000000000) = .ok .nop := by decide
theorem test_decode_fadd : decode (fields 0b00000001 0b0011 0b0001 0b0010 0b000000000000) = .ok (.fadd 3 1 2) := by decide
theorem test_decode_fsub : decode (fields 0b00000010 0b0111 0b0010 0b0011 0b000000000000) = .ok (.fsub 7 2 3) := by decide
theorem test_decode_fmul : decode (fields 0b00000011 0b0001 0b0010 0b0101 0b000000000000) = .ok (.fmul 1 2 5) := by decide
theorem test_decode_fsqr : decode (fields 0b00000100 0b1001 0b0110 0b0000 0b000000000000) = .ok (.fsqr 9 6) := by decide
theorem test_decode_fmuls : decode (fields 0b00000101 0b0111 0b1001 0b0000 0b000000000000) = .ok (.fmuls 7 9) := by decide
theorem test_decode_fmul2 : decode (fields 0b00000110 0b0010 0b1000 0b0110 0b000000000000) = .ok (.fmul2 1 4 3) := by decide
theorem test_decode_fsqr2 : decode (fields 0b00000111 0b1000 0b0110 0b0000 0b000000000000) = .ok (.fsqr2 4 3) := by decide
theorem test_decode_cswap : decode (fields 0b00001000 0b0000 0b0001 0b0010 0b000000000001) = .ok (.cswap 1 2 true) := by decide
theorem test_decode_cswap2 : decode (fields 0b00001001 0b0000 0b0010 0b0100 0b000000000000) = .ok (.cswap2 1 2 false) := by
  decide
theorem test_decode_fmov : decode (fields 0b00001010 0b0110 0b1001 0b0000 0b000000000000) = .ok (.fmov 6 9) := by decide
theorem test_decode_fseti : decode (fields 0b00001011 0b1111 0b0000 0b0000 0b111111111110) = .ok (.fseti 15 4094) := by
  decide
theorem test_decode_padbl : decode (fields 0b00010000 0b0000 0b0000 0b0000 0b000000000000) = .ok .padbl := by decide
theorem test_decode_pdbl : decode (fields 0b00010001 0b0000 0b0000 0b0000 0b000000000000) = .ok .pdbl := by decide
theorem test_decode_finv : decode (fields 0b00010010 0b0001 0b0011 0b0000 0b000000000000) = .ok (.finv 1 3) := by decide
theorem test_decode_ladder : decode (fields 0b00010011 0b0000 0b0000 0b0000 0b000000000000) = .ok .ladder := by decide
theorem test_decode_x25519 : decode (fields 0b00010100 0b0000 0b0000 0b0000 0b000000000000) = .ok .x25519 := by decide
theorem test_decode_fdec : decode (fields 0b00011000 0b1010 0b0000 0b0000 0b000000000001) = .ok (.fdec 10 1) := by decide
theorem test_decode_fldr : decode (fields 0b00011001 0b1111 0b0000 0b0000 0b000000000011) = .ok (.fldr 15 3) := by decide
theorem test_decode_fenc : decode (fields 0b00011010 0b0001 0b0000 0b0000 0b000000000010) = .ok (.fenc 2 1) := by decide
theorem test_decode_fstr : decode (fields 0b00011011 0b1100 0b0000 0b0000 0b000000000000) = .ok (.fstr 0 12) := by decide
theorem test_decode_wipe : decode (fields 0b00011111 0b0000 0b0000 0b0000 0b000000000000) = .ok .wipe := by decide

/-- Illegal words by name (96_test_vectors_more.md section 10). -/
theorem test_decode_refuses :
    decode 0x0C000000 = .error .reservedOpcode ∧ decode 0x17FFFFFF = .error .reservedOpcode ∧
    decode 0xFFFFFFFF = .error .reservedOpcode ∧ decode 0x00000001 = .error .mustBeZero ∧
    decode 0x04123000 = .error .mustBeZero ∧ decode 0x08012002 = .error .mustBeZero ∧
    decode 0x18000004 = .error .mustBeZero ∧ decode 0x06986000 = .error .oddPair ∧
    decode 0x07450000 = .error .oddPair ∧ decode 0x09025001 = .error .oddPair ∧
    decode 0x12160000 = .error .finvTemporary ∧ decode 0x12190000 = .error .finvTemporary := by decide

/-- The words of 96_test_vectors_more.md section 10 as the encoder gives them. -/
theorem test_encode_examples :
    encode (.fmul2 1 4 3) = 0x06286000 ∧ encode (.cswap 15 15 false) = 0x080FF000 ∧ encode (.fldr 15 3) = 0x19F00003 ∧
    encode (.fstr 0 12) = 0x1BC00000 ∧ encode (.finv 6 0) = 0x12600000 := by decide

theorem test_decodeTableWord :
    decodeTableWord 32 0x0B300001 = some (.fseti 3 1) ∧ decodeTableWord 32 0x0C000000 = none := by decide

/-! ### One step each: the spec's worked values (95_test_vectors.md, 96_test_vectors_more.md) -/

/-- The reset state with some registers set. -/
def withRegs (regs : List (RegIdx × Elem)) : State := regs.foldl (fun s p => s.setReg p.1 p.2) State.reset

/-- The next state of an outcome. -/
def nextOf : Result → Option State
  | .next t => some t
  | .fault _ => none
  | .refused _ => none

theorem eq_next_iff (r : Result) (t : State) : r = .next t ↔ nextOf r = some t := by cases r <;> simp [nextOf]

/-- The state after the one step that runs the command word `w` on `s`. -/
def runWord (w : Nat) (s : State) : Option State := nextOf (step (s.withFetchWord 32 w))

/-- The values of some registers after the command word `w` on `s`. -/
def regsAfter (w : Nat) (s : State) (rs : List RegIdx) : Option (List Elem) := (runWord w s).map fun t => rs.map t.reg

/-- The STATUS word after the command word `w` on `s`. -/
def statusAfter (w : Nat) (s : State) : Option Word := (runWord w s).map statusWord

/-- Section 3, Commands. -/
theorem test_fadd : regsAfter 0x01312000 (withRegs [(1, BitVec.ofNat 256 (2^256 - 1)), (2, 1)]) [3] = some [38] := by
  decide +kernel
/-- Section 3, fadd: both corrections. -/
theorem test_fadd_two_folds :
    regsAfter 0x01111000 (withRegs [(1, BitVec.ofNat 256 (2^256 - 1))]) [1] = some [74] := by decide +kernel
/-- Section 3, Commands. -/
theorem test_fsub :
    regsAfter 0x02723000 (withRegs [(3, 1)]) [7] = some [BitVec.ofNat 256 (2^256 - 39)] := by decide +kernel
/-- Section 3, fsub: both corrections. -/
theorem test_fsub_two_folds :
    regsAfter 0x02723000 (withRegs [(2, 5), (3, BitVec.ofNat 256 (2^256 - 1))]) [7] =
      some [BitVec.ofNat 256 (2^256 - 70)] := by decide +kernel
/-- Section 3, Commands: all three passes. -/
theorem test_fmul : regsAfter 0x03111000 (withRegs [(1, BitVec.ofNat 256 (2^256 - 1))]) [1] = some [1369] := by
  decide +kernel
/-- Section 3, fmul: P times P stays P. -/
theorem test_fmul_P :
    regsAfter 0x03312000 (withRegs [(1, BitVec.ofNat 256 (2^255 - 19)), (2, BitVec.ofNat 256 (2^255 - 19))]) [3] =
      some [BitVec.ofNat 256 (2^255 - 19)] := by decide +kernel
/-- Section 3, Commands. -/
theorem test_fsqr : regsAfter 0x04990000 (withRegs [(9, BitVec.ofNat 256 (2^128))]) [9] = some [38] := by decide +kernel
/-- Section 3, Commands. -/
theorem test_fmuls : regsAfter 0x05790000 (withRegs [(9, 36)]) [7, 9] = some [4379940, 36] := by decide +kernel
/-- Section 3, fmuls: the largest operand. -/
theorem test_fmuls_top :
    regsAfter 0x05790000 (withRegs [(9, BitVec.ofNat 256 (2^256 - 1))]) [7] = some [4501605] := by decide +kernel
/-- Section 3, Commands. -/
theorem test_fmul2 :
    regsAfter 0x06886000 (withRegs [(6, 3), (7, 5), (8, 7), (9, 11)]) [6, 7, 8, 9] = some [3, 5, 21, 55] := by
  decide +kernel
/-- Section 3, Commands. -/
theorem test_fsqr2 :
    regsAfter 0x07440000 (withRegs [(4, BitVec.ofNat 256 (2^256 - 1)), (5, 3)]) [4, 5] = some [1369, 9] := by
  decide +kernel
/-- Section 3, Commands: no reduction. -/
theorem test_fmov :
    regsAfter 0x0A690000 (withRegs [(9, BitVec.ofNat 256 (2^255 - 18))]) [6] = some [BitVec.ofNat 256 (2^255 - 18)] := by
  decide +kernel
/-- Section 3, Commands. -/
theorem test_fseti : regsAfter 0x0BF00FFF State.reset [15] = some [4095] := by decide +kernel
/-- Section 4. -/
theorem test_cswap : regsAfter 0x08012001 (withRegs [(1, 0xffedcb), (2, 9)]) [1, 2] = some [9, 0xffedcb] := by
  decide +kernel
/-- Section 4: selector 0. -/
theorem test_cswap_off : regsAfter 0x08012000 (withRegs [(1, 0xffedcb), (2, 9)]) [1, 2] = some [0xffedcb, 9] := by
  decide +kernel
/-- Section 4. -/
theorem test_cswap2 :
    regsAfter 0x090CA001 (withRegs [(10, 1), (11, 2), (12, 3), (13, 4)]) [10, 11, 12, 13] = some [3, 4, 1, 2] := by
  decide +kernel
/-- Section 5, example 1. -/
theorem test_padbl :
    regsAfter 0x10000000 (withRegs [(0, 9), (2, 9), (3, 1), (4, 1)]) [0, 2, 3, 4, 5, 6, 7, 8, 9] =
      some [9, 6400, 157681440, 324, 36, 64, 4380040, 100, 36] := by decide +kernel
/-- Section 5, example 2. -/
theorem test_padbl_identity :
    regsAfter 0x10000000 (withRegs [(0, 9), (2, 1), (4, 9), (5, 1)]) [2, 3, 4, 5, 6, 7, 8, 9] =
      some [1, 0, 324, BitVec.ofNat 256 (2^256 - 2), 1, 1, 1, 0] := by decide +kernel
/-- Section 5, example 4. -/
theorem test_pdbl :
    regsAfter 0x11000000 (withRegs [(0, 5), (2, 9), (3, 1), (4, 77), (5, 88)]) [0, 2, 3, 4, 5, 6, 7, 8, 9] =
      some [5, 6400, 157681440, 77, 88, 64, 4380040, 100, 36] := by decide +kernel
/-- Section 8: the inverse of 2, the destination a temporary. -/
theorem test_finv :
    regsAfter 0x126A0000 (withRegs [(10, 2)]) [6, 10] =
      some [0xbfffffffffffffffffffffffffffffffffffffffffffffffffffffffffffffe4, 2] := by decide +kernel
/-- Section 6 with section 5, example 1: with bit 254 set the first iteration swaps and doubles the point 9. (The whole LADDER
and X25519 are 5075 and 5353 operations, too many for a small test; NOTES.md says how their vectors were checked.) -/
theorem test_ladder_first_iteration :
    let t := runMicro (ladderInit ++ ladderIteration) ((withRegs [(0, 9)]).writeSlot 0 (2^254))
    (t.reg 2, t.reg 3, t.reg 4, t.reg 5, t.seqT, t.seqI) = (6400, 157681440, 324, 36, true, 253) := by decide +kernel
/-- Section 6, vector L1, and section 7, inside vector 1: from the ladder's result point, lines 3 to 5 of X25519 give the
published output in slot 2 (as a little-endian integer), by way of the named intermediate value. -/
theorem test_x25519_encode_point :
    let t := runMicro encodePointLines (withRegs
      [(2, 0xda06f4bff411d54a0bcb7ed0199ea6d5424676ce3a000b52e697000ab04a2e4a),
       (3, 0x843af540a698d16137f595f8fbaf3b137c4167327883712e3d821285ab47d414)])
    (t.reg 1, t.readSlot 2) =
      (0xd285a2775507b454f7711c4903cfec324f088df24dea948e90c6e99d3755dab0,
       0x5285a2775507b454f7711c4903cfec324f088df24dea948e90c6e99d3755dac3) := by decide +kernel
/-- Section 7: an accepted X25519 ends with f0 .. f9 zero and STATUS = 2 (DONE), f10 unchanged. -/
theorem test_x25519_clears :
    (runMicro clearWorkLines (withRegs [(0, 1), (3, 2), (9, 3), (10, 4)])).f.toList =
      [0, 0, 0, 0, 0, 0, 0, 0, 0, 0, 4, 0, 0, 0, 0, 0] ∧
    statusAfter 0x14000000 State.reset = some 0x2 := by decide +kernel
/-- Section 9: bit 255 is masked. -/
theorem test_fdec :
    regsAfter 0x18A00001 (State.reset.writeSlot 1 (2^256 - 1)) [10] = some [BitVec.ofNat 256 (2^255 - 1)] := by
  decide +kernel
/-- Section 9: bit 255 is not masked. -/
theorem test_fldr :
    regsAfter 0x19B00001 (State.reset.writeSlot 1 (2^256 - 1)) [11] = some [BitVec.ofNat 256 (2^256 - 1)] := by
  decide +kernel
/-- Section 9: P + 5 is stored as 5. -/
theorem test_fenc :
    (runWord 0x1AA00002 (withRegs [(10, BitVec.ofNat 256 (2^255 - 14))])).map (·.buf) = some [(64, 5)] := by
  decide +kernel
/-- Section 9: 2^255 - 1 and 2^255 around the first fold. -/
theorem test_canon :
    canon (2^255 - 1) = 18 ∧ canon (2^255) = 19 ∧ canon (2^256 - 1) = 37 ∧ canon (2^255 - 19) = 0 := by decide +kernel
/-- Section 9: all 256 bits are stored. -/
theorem test_fstr :
    (runWord 0x1BA00003 (withRegs [(10, BitVec.ofNat 256 (2^255 + 18))])).map (·.buf) = some [(96, 0x12), (127, 0x80)] := by
  decide +kernel
/-- Section 9, WIPE: registers and bytes zero, ILL and BACC keep their values. -/
theorem test_wipe :
    ((runWord 0x1F000000 { (withRegs [(10, 2), (3, 5)]).writeSlot 3 77 with ill := true, bacc := true }).map
      fun t => (t.reg 10, t.reg 3, t.buf, statusWord t)) = some (0, 0, [], 0xE) := by decide +kernel
/-- Section 9, NOP. -/
theorem test_nop :
    regsAfter 0x00000000 (withRegs [(10, 2)]) [10] = some [2] ∧ statusAfter 0x00000000 (withRegs [(10, 2)]) = some 0x2 := by
  decide +kernel

/-! ### The host port (96_test_vectors_more.md section 10) -/

/-- The answers and the STATUS word after `n` steps from reset with the given turns. -/
def portRun (n : Nat) (turns : List Turn) : Option (List (BitVec 64) × Word) :=
  match Host.Core.run Sys2Proof.core n { State.reset with schedule := turns } with
  | .next t => some (t.answers, statusWord t)
  | .fault _ => none
  | .refused _ => none

/-- Rows 2 to 4: FSETI issued, f3 read while BUSY, an illegal word while BUSY. -/
theorem test_port_busy :
    portRun 3 [.host (.write 0x000 .w4 0x0B300001), .host (.read 0x260 .w1), .host (.write 0x000 .w4 0x0C000000)] =
      some ([0], 0x9) := by decide +kernel
/-- Rows 2, 7, 8, 9: FSETI issued and completed, f3 read back, an illegal word while idle. -/
theorem test_port_idle :
    portRun 4 [.host (.write 0x000 .w4 0x0B300001), .unit, .host (.read 0x260 .w1),
      .host (.write 0x000 .w4 0x0C000000)] = some ([1], 0x6) := by decide +kernel
/-- The last two rows: a byte write into f0 read as eight bytes, and the unmapped and the malformed read. -/
theorem test_port_windows :
    portRun 4 [.host (.write 0x21F .w1 0x80), .host (.read 0x218 .w8), .host (.read 0x008 .w4), .host (.read 0x005 .w1)] =
      some ([0x8000000000000000, 0, 0], 0x0) := by decide +kernel

/-! ### Witnesses: concrete states and operands that meet the hypotheses of the statements, clause by clause -/

/-- A unit running FSETI f3, #1, with registers, bytes, ILL and a schedule that are not at their reset values. -/
def running : State :=
  { (withRegs [(0, 9), (3, 5), (15, 7)]).writeSlot 0 0x0801 with
    cmdr := 0x0B300001, busy := true, ill := true, bacc := true, schedule := [.host (.read 0x260 .w1)] }

/-- The same unit, idle, the command done. -/
def idle : State := { running with busy := false, done := true }

theorem test_meets_UnitTurnRunsTheCommandInCmdr :
    (running.busy = true ∧ decode running.cmdr = .ok (.fseti 3 1)) ∧ idle.busy = false ∧ State.reset.schedule = [] := by
  decide +kernel

theorem test_meets_CommandsTouchOnlyRegistersAndBuffer : running.seqT = false ∧ running.seqI = 0 := by decide +kernel

theorem test_meets_OnlyTheWrittenRegistersAndBytesChange :
    writesReg (.fadd 3 1 2) 1 = false ∧ writesReg .padbl 1 = false ∧ writesReg .padbl 10 = false ∧
    writesReg .ladder 0 = false ∧ writesByte (.fenc 2 1) 63 = false ∧ writesByte (.fenc 2 1) 96 = false ∧
    writesByte .ladder 0 = false := by decide +kernel

/-- LADDER reads f0 and slot 0: two states that differ everywhere else. -/
theorem test_meets_ResultsDependOnTheReadRegistersAndBytes :
    Memory.wf (running.writeSlot 1 5).buf ∧ Memory.wf running.buf ∧
    (∀ r, readsReg .ladder r = true → (running.setReg 1 8).reg r = running.reg r) ∧
    (∀ a, readsByte .ladder a = true → (running.writeSlot 1 5).buf.read a = running.buf.read a) ∧
    (writesReg .ladder 2 = true ∧ writesReg .ladder 9 = true) ∧
    (writesByte .x25519 64 = true ∧ writesByte .x25519 95 = true) := by
  refine ⟨by decide +kernel, by decide +kernel, by decide +kernel, fun a h => ?_, by decide +kernel, by decide +kernel⟩
  have h : a < 32 := by
    simp [readsByte, inSlot, slotAddr, Config.NBYTES] at h
    omega
  rw [writeSlot_buf, Memory.read_writeLE_of_outside]
  simp [slotAddr, Config.NBYTES]
  omega

/-- Three states that meet the invariant: running, idle, at reset. -/
theorem test_meets_Inv : Inv running ∧ Inv idle ∧ Inv State.reset := by decide +kernel

/-- EveryStepKeepsTheInvariant, NoStepStops, TheUnitBecomesIdle: a completion, from a state that meets the invariant. -/
theorem test_meets_EveryStepKeepsTheInvariant :
    Inv running ∧ step { running with schedule := [] } = .next { idle with f := (running.setReg 3 1).f, schedule := [] } := by
  simp only [eq_next_iff]
  decide +kernel

/-- CMDR changed by an issue and by a reset. -/
theorem test_meets_CmdrChangesOnlyByIssueOrReset :
    (step { idle with schedule := [.host (.write 0x000 .w4 0x1F000000)] } =
        .next { idle with cmdr := 0x1F000000, busy := true, done := false, schedule := [] } ∧
      (0x1F000000 : Word) ≠ idle.cmdr) ∧
    (step { running with schedule := [.reset] } = .next State.reset ∧ State.reset.cmdr ≠ running.cmdr) := by
  simp only [eq_next_iff]
  decide +kernel

/-- Each of the four flags falling, each in one way the statement names. -/
theorem test_meets_FlagsAreClearedOnlyAsStated :
    (step { running with schedule := [.host (.write 0x004 .w4 0x4)] } = .next { running with ill := false, schedule := [] } ∧
      running.ill = true) ∧
    (step { running with schedule := [.host (.write 0x004 .w4 0x8)] } = .next { running with bacc := false, schedule := [] } ∧
      running.bacc = true) ∧
    (step { idle with schedule := [.host (.write 0x004 .w4 0x2)] } = .next { idle with done := false, schedule := [] } ∧
      idle.done = true) ∧
    (step { idle with schedule := [.host (.write 0x000 .w4 0x0)] } =
        .next { idle with cmdr := 0, busy := true, done := false, schedule := [] } ∧ idle.done = true) ∧
    (step { running with schedule := [.unit] } = .next { idle with f := (running.setReg 3 1).f, schedule := [] } ∧
      running.busy = true) := by
  simp only [eq_next_iff]
  decide +kernel

theorem test_meets_BufWindowBytes :
    idle.busy = false ∧ Memory.wf idle.buf ∧ ((0 : Fin 128).val = 0 ∧ (127 : Fin 128).val = 127) := by decide +kernel

/-- The bits next to the written byte, below and above it. -/
theorem test_meets_RegisterWindowBytes :
    idle.busy = false ∧ (7 : Nat) < 8 * (1 : Fin 32).val ∧ (247 : Nat) < 8 * (31 : Fin 32).val ∧
    8 * (0 : Fin 32).val + 8 ≤ 8 ∧ 8 * (30 : Fin 32).val + 8 ≤ 248 := by decide +kernel

/-- The first and the last access of each window, one and eight bytes wide. -/
theorem test_meets_WideAccessIsItsByteAccesses :
    idle.busy = false ∧
    (0x080 ≤ (0x080 : BitVec 10).toNat ∧ (0x080 : BitVec 10).toNat + HostWidth.w8.bytes ≤ 0x100) ∧
    (0x080 ≤ (0x0F8 : BitVec 10).toNat ∧ (0x0F8 : BitVec 10).toNat + HostWidth.w8.bytes ≤ 0x100) ∧
    (0x080 ≤ (0x0FF : BitVec 10).toNat ∧ (0x0FF : BitVec 10).toNat + HostWidth.w1.bytes ≤ 0x100) ∧
    (0x200 ≤ (0x200 : BitVec 10).toNat ∧ (0x200 : BitVec 10).toNat + HostWidth.w8.bytes ≤ 0x400) ∧
    (0x200 ≤ (0x3F8 : BitVec 10).toNat ∧ (0x3F8 : BitVec 10).toNat + HostWidth.w8.bytes ≤ 0x400) := by decide +kernel

/-- The edges of the three unmapped clauses, and that the neighbours outside them reach a register or a window. -/
theorem test_meets_UnmappedAccessesDoNothing :
    ((0x000 : BitVec 10).toNat < 0x008 ∧ HostWidth.w8 ≠ .w4) ∧
    ((0x007 : BitVec 10).toNat < 0x008 ∧ (0x007 : BitVec 10).toNat ≠ 0x000 ∧ (0x007 : BitVec 10).toNat ≠ 0x004) ∧
    (0x008 ≤ (0x008 : BitVec 10).toNat ∧ (0x008 : BitVec 10).toNat + HostWidth.w1.bytes ≤ 0x080) ∧
    (0x008 ≤ (0x078 : BitVec 10).toNat ∧ (0x078 : BitVec 10).toNat + HostWidth.w8.bytes ≤ 0x080) ∧
    (0x100 ≤ (0x100 : BitVec 10).toNat ∧ (0x100 : BitVec 10).toNat + HostWidth.w1.bytes ≤ 0x200) ∧
    (0x100 ≤ (0x1FC : BitVec 10).toNat ∧ (0x1FC : BitVec 10).toNat + HostWidth.w4.bytes ≤ 0x200) ∧
    hostTarget 0x000 .w4 = .cmd ∧ hostTarget 0x004 .w4 = .status ∧
    hostTarget 0x080 .w1 = .bufWindow 0 ∧ hostTarget 0x200 .w1 = .regWindow 0 := by decide +kernel

/-- The edges of both windows of a BUSY unit. -/
theorem test_meets_BusyAccessesAreRefused :
    running.busy = true ∧
    (0x080 ≤ (0x080 : BitVec 10).toNat ∧ (0x080 : BitVec 10).toNat + HostWidth.w1.bytes ≤ 0x100) ∧
    (0x080 ≤ (0x0FC : BitVec 10).toNat ∧ (0x0FC : BitVec 10).toNat + HostWidth.w4.bytes ≤ 0x100) ∧
    (0x200 ≤ (0x200 : BitVec 10).toNat ∧ (0x200 : BitVec 10).toNat + HostWidth.w2.bytes ≤ 0x400) ∧
    (0x200 ≤ (0x3FF : BitVec 10).toNat ∧ (0x3FF : BitVec 10).toNat + HostWidth.w1.bytes ≤ 0x400) := by decide +kernel

theorem test_meets_BusyUnitRevealsNothing :
    running.busy = true ∧ { running with f := (withRegs [(1, 3)]).f, buf := [] } ≠ running := by decide +kernel

theorem test_meets_DecodeOfEncodeIsTheCommand :
    Instr.WellFormed (.finv 9 5) ∧ Instr.WellFormed (.finv 0 10) ∧ Instr.WellFormed (.fmul2 7 0 7) := by decide

theorem test_meets_EncodeOfDecodeIsTheWord :
    decode 0x12950000 = .ok (.finv 9 5) ∧ decode 0x0BFFF000 ≠ .ok (.fseti 15 0) ∧ decode 0x06EEE000 = .ok (.fmul2 7 7 7) := by
  decide

theorem test_meets_LegalWordsAreTheDecodableOnes :
    legal 0x12950000 = true ∧ legal 0x12960000 = false ∧
    ∃ r ∈ opcodeTable, (0x12960000 : Word) &&& r.mask = r.pattern := by decide

/-- The premises of the three bounded laws, at the edge of each. -/
theorem test_meets_BitExactLaws :
    (2^256 - 38 + 37 < 2^256) ∧ ((1 : Elem).toNat ≤ (1 : Elem).toNat) ∧
    ((1 : Elem).toNat * (BitVec.ofNat 256 (2^256 - 1)).toNat < 2^256) := by decide +kernel

theorem test_meets_PdblResult :
    (withRegs [(2, 9)]).reg 3 = 0 ∧ ((withRegs [(2, 1)]).reg 3 = 0 ∧ (withRegs [(2, 1)]).reg 2 = 1) ∧
    ((withRegs [(2, 9), (3, 1)]).reg 2 = 9 ∧ (withRegs [(2, 9), (3, 1)]).reg 3 = 1) := by decide +kernel

/-- One word for each odd register of a pair field (the words of section 10). -/
theorem test_meets_PairCommands_and_SwapCommands :
    (fieldOp 0x06986000 = 0x06 ∧ BitVec.getLsbD (0x06986000 : Word) 20 = true) ∧
    (fieldOp 0x06896000 = 0x06 ∧ BitVec.getLsbD (0x06896000 : Word) 16 = true) ∧
    (fieldOp 0x06887000 = 0x06 ∧ BitVec.getLsbD (0x06887000 : Word) 12 = true) ∧
    (fieldOp 0x07450000 = 0x07 ∧ BitVec.getLsbD (0x07450000 : Word) 16 = true) ∧
    (fieldOp 0x07540000 = 0x07 ∧ BitVec.getLsbD (0x07540000 : Word) 20 = true) ∧
    (fieldOp 0x09034001 = 0x09 ∧ BitVec.getLsbD (0x09034001 : Word) 16 = true) ∧
    (fieldOp 0x09025001 = 0x09 ∧ BitVec.getLsbD (0x09025001 : Word) 12 = true) := by decide

/-- The y of the base point x = 9, a root of the curve's equation. -/
def baseY : ℕ := 14781619447589544791020593568409986887264606134616475288964881837755586237401

/-- (9, y) is on the curve. -/
theorem base_point (K : Type) [Field K] [CharP K Config.P] : (curve K).Nonsingular 9 baseY := by
  rw [WeierstrassCurve.Affine.nonsingular_iff, WeierstrassCurve.Affine.equation_iff]
  have hP : ((Config.P : ℕ) : K) = 0 := CharP.cast_eq_zero K Config.P
  have he : ((baseY^2 : ℕ) : K) = ((9^3 + (4 * Config.A24 + 2) * 9^2 + 9 + Config.P * (baseY^2 / Config.P) : ℕ) : K) :=
    congrArg Nat.cast (show baseY^2 = _ by decide +kernel)
  push_cast at he
  rw [hP] at he
  have hy : (baseY : K) ≠ 0 := cast_ne_zero (by decide +kernel) (by decide +kernel)
  refine ⟨?_, .inr ?_⟩
  · simp only [curve]
    linear_combination he
  · simp only [curve]
    intro e
    exact mul_ne_zero two_ne_zero_of_P hy (by linear_combination e)

/-- A register's natural number, as a field element. -/
theorem elem_of_reg (K : Type) [Field K] {s : State} {r : RegIdx} {n : ℕ} (h : (s.reg r).toNat = n) : s.elem K r = n := by
  rw [State.elem, h]

/-- `n = 0` and Q the base point. -/
theorem test_meets_PadblDoublesAndAddsOnTheCurve :
    ∃ (K : Type) (_ : Field K) (_ : DecidableEq K) (_ : CharP K Config.P) (Q : (curve K).Point),
      let s := withRegs [(0, 9), (2, 1), (4, 9), (5, 1)]
      RepresentsX (s.elem K 0) 1 Q ∧ RepresentsX (s.elem K 2) (s.elem K 3) (0 • Q) ∧
      RepresentsX (s.elem K 4) (s.elem K 5) ((0 + 1) • Q) ∧ s.elem K 0 ≠ 0 := by
  have := Fact.mk Laws.prime_P
  refine ⟨ZMod Config.P, inferInstance, inferInstance, inferInstance, .some 9 baseY (base_point _), ?_⟩
  intro s
  have e0 : s.elem (ZMod Config.P) 0 = (9 : ℕ) := elem_of_reg _ (by decide +kernel)
  have e2 : s.elem (ZMod Config.P) 2 = (1 : ℕ) := elem_of_reg _ (by decide +kernel)
  have e3 : s.elem (ZMod Config.P) 3 = (0 : ℕ) := elem_of_reg _ (by decide +kernel)
  have e4 : s.elem (ZMod Config.P) 4 = (9 : ℕ) := elem_of_reg _ (by decide +kernel)
  have e5 : s.elem (ZMod Config.P) 5 = (1 : ℕ) := elem_of_reg _ (by decide +kernel)
  rw [zero_smul, zero_add, one_smul, e0, e2, e3, e4, e5]
  exact ⟨⟨one_ne_zero, by simp⟩, ⟨by simp, by simp⟩, ⟨by simp, by simp⟩, cast_ne_zero (by decide) (by decide)⟩

/-- `X1 = 0`: Q = (0, 0). -/
theorem test_meets_PadblDoublesAndAddsOnTheCurve_zero :
    ∃ (K : Type) (_ : Field K) (_ : DecidableEq K) (_ : CharP K Config.P) (Q : (curve K).Point),
      let s := withRegs [(2, 1), (5, 1)]
      RepresentsX (s.elem K 0) 1 Q ∧ RepresentsX (s.elem K 2) (s.elem K 3) (0 • Q) ∧
      RepresentsX (s.elem K 4) (s.elem K 5) ((0 + 1) • Q) ∧ s.elem K 0 = 0 := by
  have := Fact.mk Laws.prime_P
  have h : (curve (ZMod Config.P)).Nonsingular 0 0 := by
    rw [WeierstrassCurve.Affine.nonsingular_iff, WeierstrassCurve.Affine.equation_iff]
    simp [curve]
  refine ⟨ZMod Config.P, inferInstance, inferInstance, inferInstance, .some 0 0 h, ?_⟩
  intro s
  have e0 : s.elem (ZMod Config.P) 0 = (0 : ℕ) := elem_of_reg _ (by decide +kernel)
  have e2 : s.elem (ZMod Config.P) 2 = (1 : ℕ) := elem_of_reg _ (by decide +kernel)
  have e3 : s.elem (ZMod Config.P) 3 = (0 : ℕ) := elem_of_reg _ (by decide +kernel)
  have e4 : s.elem (ZMod Config.P) 4 = (0 : ℕ) := elem_of_reg _ (by decide +kernel)
  have e5 : s.elem (ZMod Config.P) 5 = (1 : ℕ) := elem_of_reg _ (by decide +kernel)
  rw [zero_smul, zero_add, one_smul, e0, e2, e3, e4, e5]
  refine ⟨⟨one_ne_zero, ?_⟩, ⟨?_, ?_⟩, ⟨?_, ?_⟩, ?_⟩ <;> simp

theorem test_meets_LadderIsItsCommands : running.seqT = false ∧ running.seqI = 0 ∧ running.kbit 11 = true := by decide +kernel

/-- Two scalars that differ in exactly the bits 0, 1, 2 and 255. -/
theorem test_meets_LadderDependsOnX1AndBits3To254 :
    (running.writeSlot 0 (2^255 + 2^254 + 8 + 7)).reg 0 = (running.writeSlot 0 (2^254 + 8)).reg 0 ∧
    (∀ i : Fin 256, 3 ≤ i.val → i.val ≤ 254 →
      (running.writeSlot 0 (2^255 + 2^254 + 8 + 7)).kbit i.val = (running.writeSlot 0 (2^254 + 8)).kbit i.val) ∧
    (running.writeSlot 0 (2^255 + 2^254 + 8 + 7)).kbit 255 ≠ (running.writeSlot 0 (2^254 + 8)).kbit 255 := by
  decide +kernel

theorem test_meets_LadderOfZeroScalar :
    ∀ i : Fin 256, 3 ≤ i.val → i.val ≤ 254 → (running.writeSlot 0 (2^255 + 7)).kbit i.val = false := by decide +kernel

theorem test_meets_FinvIsThePower :
    Instr.WellFormed (.finv 6 0) ∧ Instr.WellFormed (.finv 10 10) ∧ ((10 : RegIdx) ≠ 6 ∧ (10 : RegIdx) ≠ 9) := by decide

theorem test_meets_FinvIsTheInverse : Instr.WellFormed (.finv 3 3) ∧ (running.reg 3).toNat % Config.P ≠ 0 := by
  decide +kernel

/-- The two sources that represent 0 the statement names, and 2P. -/
theorem test_meets_FinvOfZero :
    Instr.WellFormed (.finv 11 10) ∧ (withRegs []).reg 10 = 0 ∧
    ((withRegs [(10, BitVec.ofNat 256 Config.P)]).reg 10).toNat = Config.P ∧
    ((withRegs [(10, BitVec.ofNat 256 (2 * Config.P))]).reg 10).toNat % Config.P = 0 := by decide +kernel

/-- StoreCommands, CodecRoundTrips, X25519OutputIsTheLadderModP; the edges of a slot. -/
theorem test_meets_StoreCommands :
    Memory.wf running.buf ∧ Memory.wf (running.writeSlot 1 9).buf ∧ (31 < 32 * (1 : Slot).val ∧ 32 * (1 : Slot).val + 32 ≤ 64) := by
  decide +kernel

theorem test_meets_X25519OfZeroScalar :
    Memory.wf (State.reset.writeSlot 1 9).buf ∧ (State.reset.writeSlot 1 9).buf.readLE 0 32 = 0 := by decide +kernel

end Sys2Proof.Tests
end

section
/-! A matched row is the row the decoder picks (30_encoding.md R100, R104): every legal word decodes. -/

namespace Sys2Proof

theorem fieldOp_and (w m : Word) : fieldOp (w &&& m) = fieldOp w &&& fieldOp m := BitVec.extractLsb'_and

/-- Every mask keeps the whole opcode field. -/
theorem fieldOp_mask : ∀ r ∈ opcodeTable, fieldOp r.mask = BitVec.allOnes 8 := by decide

/-- No two rows share an opcode. -/
theorem rowFor_pattern : ∀ r ∈ opcodeTable, rowFor (fieldOp r.pattern) = some r := by decide

/-- A word that fits a row has that row's opcode, so the decoder picks this row. -/
theorem rowFor_fieldOp_of_matches {w : Word} {r : Row} (hr : r ∈ opcodeTable) (hw : w &&& r.mask = r.pattern) :
    rowFor (fieldOp w) = some r := by
  have hop : fieldOp r.pattern = fieldOp w := by
    rw [← hw, fieldOp_and, fieldOp_mask r hr, BitVec.and_allOnes]
  rw [← hop, rowFor_pattern r hr]

/-- `legal(w)` as R100 words it. -/
theorem legal_iff (w : Word) :
    legal w = true ↔
      ∃ r ∈ opcodeTable, w &&& r.mask = r.pattern ∧ (r.op = .finv → isTemporary (fieldA w) = false) := by
  simp [legal, imp_iff_not_or]

/-- The one check on a word of a row's form is that of FINV's source. -/
theorem wellFormed_build_iff (w : Word) (op : Op) :
    (op.build w).WellFormed ↔ (op = .finv → isTemporary (fieldA w) = false) := by
  cases op <;> simp [Op.build, Instr.WellFormed, Instr.wellFormed]

/-- A word that fits a row and passes FINV's check decodes to the command of that row. -/
theorem decode_eq_build {w : Word} {r : Row} (hr : r ∈ opcodeTable) (hw : w &&& r.mask = r.pattern)
    (hwf : (r.op.build w).WellFormed) : decode w = .ok (r.op.build w) := by
  simp [decode, rowFor_fieldOp_of_matches hr hw, hw, hwf]

theorem decode_of_legal {w : Word} (h : legal w = true) : ∃ i, decode w = .ok i := by
  obtain ⟨r, hr, hw, hsource⟩ := (legal_iff w).mp h
  exact ⟨r.op.build w, decode_eq_build hr hw ((wellFormed_build_iff w r.op).mpr hsource)⟩

end Sys2Proof
end

section
/-! A step stops only in a completion whose CMDR spells no command (log 5), and the invariant's legal CMDR shuts that out. -/

namespace Sys2Proof.Machine

theorem complete_eq_next {s : State} {i : Instr} (h : decode s.cmdr = .ok i) :
    complete s = .next (markDone (runMicro (linesOf i) s)) := by
  simp [complete, h, exec_eq_runMicro]

theorem unitTurn_answers {s : State} (h : legal s.cmdr = true) : ∃ t, unitTurn s = .next t := by
  unfold unitTurn
  split
  · obtain ⟨i, hi⟩ := decode_of_legal h
    exact ⟨_, complete_eq_next hi⟩
  · exact ⟨s, rfl⟩

theorem step_answers {s : State} (h : legal s.cmdr = true) : ∃ t, step s = .next t := by
  unfold step
  split
  · exact ⟨_, rfl⟩
  · exact ⟨_, rfl⟩
  · next s' hturn =>
    have hs' : (takeTurn s).2 = s' := by rw [hturn]
    exact unitTurn_answers (by rwa [← hs', takeTurn_cmdr])

/-- Settles O12: of the invariant, the legal CMDR alone is needed. -/
theorem noStepStops : Obligations.NoStepStops := by
  intro s hinv
  obtain ⟨-, hlegal, -⟩ := hinv
  exact step_answers hlegal

end Sys2Proof.Machine
end


section
/-! What a line reads and writes, location by location, and the two rules of 10_state.md R24 for one line: it leaves
what it does not write, and what it writes depends on what it reads. -/

namespace Sys2Proof.Machine

/-- The places a command can read or write: registers, bytes of BUF, and the sequencer registers T and i. -/
inductive Loc
  | reg (r : RegIdx)
  | byte (a : Nat)
  | seqT
  | seqI

/-- Two states hold the same value at a location. -/
def Loc.Same : Loc → State → State → Prop
  | .reg r, s, t => s.reg r = t.reg r
  | .byte a, s, t => s.buf.read a = t.buf.read a
  | .seqT, s, t => s.seqT = t.seqT
  | .seqI, s, t => s.seqI = t.seqI

theorem Loc.Same.refl (l : Loc) (s : State) : l.Same s s := by
  cases l <;> rfl

theorem Loc.Same.symm {l : Loc} {s t : State} (h : l.Same s t) : l.Same t s := by
  cases l <;> exact Eq.symm h

theorem Loc.Same.trans {l : Loc} {s t u : State} (h : l.Same s t) (h' : l.Same t u) : l.Same s u := by
  cases l <;> exact Eq.trans h h'

theorem Loc.forall_iff {p : Loc → Prop} :
    (∀ l, p l) ↔ (∀ r, p (.reg r)) ∧ (∀ a, p (.byte a)) ∧ p .seqT ∧ p .seqI :=
  ⟨fun h => ⟨fun _ => h _, fun _ => h _, h _, h _⟩, fun ⟨hr, hb, hT, hI⟩ l =>
    match l with
    | .reg r => hr r
    | .byte a => hb a
    | .seqT => hT
    | .seqI => hI⟩

/-- The column "reads" of 10_state.md R24: no command reads T or i before it has set it (R36). -/
def columnReads (i : Instr) : Loc → Bool
  | .reg r => readsReg i r
  | .byte a => readsByte i a
  | .seqT => false
  | .seqI => false

@[simp] theorem columnReads_reg (i : Instr) (r : RegIdx) : columnReads i (.reg r) = readsReg i r := rfl
@[simp] theorem columnReads_byte (i : Instr) (a : Nat) : columnReads i (.byte a) = readsByte i a := rfl
@[simp] theorem columnReads_seqT (i : Instr) : columnReads i .seqT = false := rfl
@[simp] theorem columnReads_seqI (i : Instr) : columnReads i .seqI = false := rfl

theorem forall_columnReads_iff {i : Instr} {p : Loc → Prop} :
    (∀ l, columnReads i l = true → p l) ↔
      (∀ r, readsReg i r = true → p (.reg r)) ∧ (∀ a, readsByte i a = true → p (.byte a)) := by
  simp [Loc.forall_iff]

/-- The command whose columns of 10_state.md R24 a line has; `nop` for the actions on T and i. -/
def Micro.command : Micro → Instr
  | .fadd d a b => .fadd d a b
  | .fsub d a b => .fsub d a b
  | .fmul d a b => .fmul d a b
  | .fsqr d a => .fsqr d a
  | .fmuls d a => .fmuls d a
  | .fmul2 d a b => .fmul2 d a b
  | .fsqr2 d a => .fsqr2 d a
  | .cswap a b sel => .cswap a b sel
  | .cswap2 a b sel => .cswap2 a b sel
  | .fmov d a => .fmov d a
  | .fseti d imm => .fseti d imm
  | .fdec d slot => .fdec d slot
  | .fldr d slot => .fldr d slot
  | .fenc slot r => .fenc slot r
  | .fstr slot r => .fstr slot r
  | .wipe => .wipe
  | .ladderStart => .nop
  | .ladderSwap => .cswap2 1 2 false
  | .ladderNext => .nop
  | .ladderUnswap => .cswap2 1 2 false
  | .ladderEnd => .nop

/-- The lines that read `kbit(i)`, a bit of slot 0 (43_ladder.md R161, R164). -/
def Micro.readsKbit : Micro → Bool
  | .ladderSwap | .ladderNext => true
  | _ => false

/-- The lines that read T (43_ladder.md R164, R165). -/
def Micro.readsT : Micro → Bool
  | .ladderSwap | .ladderUnswap => true
  | _ => false

/-- The lines that set T and i (43_ladder.md R162, R164, R166). -/
def Micro.setsSequencer : Micro → Bool
  | .ladderStart | .ladderNext | .ladderEnd => true
  | _ => false

/-- What a line reads. -/
def Micro.reads (m : Micro) : Loc → Bool
  | .reg r => readsReg m.command r
  | .byte a => readsByte m.command a || (m.readsKbit && inSlot 0 a)
  | .seqT => m.readsT
  | .seqI => m.readsKbit

/-- What a line writes. -/
def Micro.writes (m : Micro) : Loc → Bool
  | .reg r => writesReg m.command r
  | .byte a => writesByte m.command a
  | .seqT => m.setsSequencer
  | .seqI => m.setsSequencer

section
variable (m : Micro) (r : RegIdx) (a : Nat)

@[simp] theorem reads_reg : m.reads (.reg r) = readsReg m.command r := rfl
@[simp] theorem reads_byte : m.reads (.byte a) = (readsByte m.command a || (m.readsKbit && inSlot 0 a)) := rfl
@[simp] theorem reads_seqT : m.reads .seqT = m.readsT := rfl
@[simp] theorem reads_seqI : m.reads .seqI = m.readsKbit := rfl
@[simp] theorem writes_reg : m.writes (.reg r) = writesReg m.command r := rfl
@[simp] theorem writes_byte : m.writes (.byte a) = writesByte m.command a := rfl
@[simp] theorem writes_seqT : m.writes .seqT = m.setsSequencer := rfl
@[simp] theorem writes_seqI : m.writes .seqI = m.setsSequencer := rfl

end

/-! ### A line leaves what it does not write -/

theorem run_reg_of_not_written {m : Micro} {r : RegIdx} (h : writesReg m.command r = false) (s : State) :
    (m.run s).reg r = s.reg r := by
  cases m with
  | ladderStart | ladderNext | ladderEnd => rfl
  | wipe => cases h
  | _ =>
    simp_all [Micro.command, writesReg, Micro.run, doFadd, doFsub, doFmul, doFsqr, doFmuls, doFmul2, doFsqr2, doFmov,
      doFseti, doCswap, doCswap2, doFdec, doFldr, doFenc, doFstr, doLadderSwap, doLadderUnswap]

theorem read_writeLE_of_not_inSlot {slot : Slot} {a : Nat} (h : inSlot slot a = false) (m : Memory) (v : Nat) :
    (m.writeLE (slotAddr slot) Config.NBYTES v).read a = m.read a := by
  refine Memory.read_writeLE_of_outside _ _ _ ?_
  simp [inSlot] at h
  omega

theorem run_byte_of_not_written {m : Micro} {a : Nat} (h : writesByte m.command a = false) (s : State) :
    (m.run s).buf.read a = s.buf.read a := by
  rw [run_buf]
  cases m with
  | fenc slot r | fstr slot r =>
    simp only [writeSlot_buf]
    exact read_writeLE_of_not_inSlot h s.buf _
  | wipe => cases h
  | _ => rfl

theorem run_seq_of_not_set {m : Micro} (h : m.setsSequencer = false) (s : State) :
    (m.run s).seqT = s.seqT ∧ (m.run s).seqI = s.seqI := by
  cases m with
  | ladderStart | ladderNext | ladderEnd => cases h
  | _ =>
    simp [Micro.run, doFadd, doFsub, doFmul, doFsqr, doFmuls, doFmul2, doFsqr2, doFmov, doFseti, doCswap, doCswap2,
      doFdec, doFldr, doFenc, doFstr, doLadderSwap, doLadderUnswap]

theorem run_same_of_not_written {m : Micro} {l : Loc} (h : m.writes l = false) (s : State) : l.Same (m.run s) s := by
  cases l with
  | reg r => exact run_reg_of_not_written h s
  | byte a => exact run_byte_of_not_written h s
  | seqT => exact (run_seq_of_not_set h s).1
  | seqI => exact (run_seq_of_not_set h s).2

/-! ### What a line writes is a function of what it reads -/

/-- A slot's integer is a function of the slot's bytes. -/
theorem readSlot_congr {s t : State} {slot : Slot} (h : ∀ a, inSlot slot a = true → s.buf.read a = t.buf.read a) :
    s.readSlot slot = t.readSlot slot := by
  refine Memory.readLE_congr _ fun k hk => h _ ?_
  simp [inSlot, hk]

/-- A bit whose index fits the 8-bit register i is a function of slot 0. -/
theorem kbit_congr {s t : State} (h : ∀ a, inSlot 0 a = true → s.buf.read a = t.buf.read a) (i : BitVec 8) :
    s.kbit i.toNat = t.kbit i.toNat := by
  have hi := i.isLt
  have hbyte : inSlot 0 (i.toNat / 8) = true := by
    simp [inSlot, slotAddr, Config.NBYTES]
    omega
  rw [State.kbit, State.kbit, h _ hbyte]

/-- In canonical form the bytes of a slot just written are a function of the value. -/
theorem read_writeLE_congr {m m' : Memory} (hm : Memory.wf m) (hm' : Memory.wf m') {slot : Slot} {a : Nat}
    (h : inSlot slot a = true) (v : Nat) :
    (m.writeLE (slotAddr slot) Config.NBYTES v).read a = (m'.writeLE (slotAddr slot) Config.NBYTES v).read a := by
  simp only [inSlot, Bool.and_eq_true, decide_eq_true_eq] at h
  obtain ⟨t, rfl⟩ := Nat.exists_eq_add_of_le h.1
  rw [Memory.read_writeLE _ _ hm (slot_inside slot) (by omega), Memory.read_writeLE _ _ hm' (slot_inside slot) (by omega)]

section
variable {s t : State} {r : RegIdx}

theorem reg_setReg_congr {i : RegIdx} {v w : Elem} (hv : v = w) (h : r ≠ i → s.reg r = t.reg r) :
    (s.setReg i v).reg r = (t.setReg i w).reg r := by
  by_cases hri : r = i
  · simp [hri, hv]
  · simp [hri, h hri]

theorem doCswap_reg_congr {a b : RegIdx} (sel : Bool) (ha : s.reg a = t.reg a) (hb : s.reg b = t.reg b)
    (hr : r ≠ a → r ≠ b → s.reg r = t.reg r) : (doCswap a b sel s).reg r = (doCswap a b sel t).reg r := by
  simp only [doCswap, ha, hb]
  exact reg_setReg_congr rfl fun hrb => reg_setReg_congr rfl fun hra => hr hra hrb

/-- The registers of two pairs, after a swap of the pairs, are a function of what they were. -/
theorem doCswap2_reg_congr {a b : PairIdx} (sel : Bool)
    (h : ∀ x, readsReg (.cswap2 a b sel) x = true → s.reg x = t.reg x) (hr : readsReg (.cswap2 a b sel) r = true) :
    (doCswap2 a b sel s).reg r = (doCswap2 a b sel t).reg r := by
  have even : ∀ x, readsReg (.cswap2 a b sel) x = true →
      (doCswap (pairEven a) (pairEven b) sel s).reg x = (doCswap (pairEven a) (pairEven b) sel t).reg x :=
    fun x hx => doCswap_reg_congr sel (h _ (by simp [readsReg])) (h _ (by simp [readsReg])) fun _ _ => h x hx
  exact doCswap_reg_congr sel (even _ (by simp [readsReg])) (even _ (by simp [readsReg])) fun _ _ => even r hr

end

/-- The locations that a line reads hold the same values. -/
abbrev SameReads (m : Micro) (s t : State) : Prop := ∀ l, m.reads l = true → l.Same s t

theorem kbit_eq_of_sameReads {m : Micro} {s t : State} (h : SameReads m s t) (hm : m.readsKbit = true) :
    s.seqI = t.seqI ∧ s.kbit s.seqI.toNat = t.kbit t.seqI.toNat := by
  have hI : s.seqI = t.seqI := h .seqI hm
  have hslot : ∀ a, inSlot 0 a = true → s.buf.read a = t.buf.read a := fun a ha => h (.byte a) (by simp [hm, ha])
  exact ⟨hI, by rw [hI, kbit_congr hslot]⟩

theorem run_reg_congr {m : Micro} {s t : State} (h : SameReads m s t) {r : RegIdx} (hr : writesReg m.command r = true) :
    (m.run s).reg r = (m.run t).reg r := by
  have hreg : ∀ x, readsReg m.command x = true → s.reg x = t.reg x := fun x => h (.reg x)
  cases m with
  | fmul2 d a b =>
    simp only [Micro.command, readsReg, writesReg, Bool.or_eq_true, beq_iff_eq] at hreg hr
    obtain rfl | rfl := hr <;> simp [Micro.run, doFmul2, doFmul, reg_setReg, hreg]
  | fsqr2 d a =>
    simp only [Micro.command, readsReg, writesReg, Bool.or_eq_true, beq_iff_eq] at hreg hr
    obtain rfl | rfl := hr <;> simp [Micro.run, doFsqr2, doFsqr, reg_setReg, hreg]
  | cswap a b sel =>
    have ha : s.reg a = t.reg a := hreg a (by simp [Micro.command, readsReg])
    have hb : s.reg b = t.reg b := hreg b (by simp [Micro.command, readsReg])
    exact doCswap_reg_congr sel ha hb fun _ _ => hreg r hr
  | cswap2 a b sel => exact doCswap2_reg_congr sel hreg hr
  | ladderSwap =>
    have hT : s.seqT = t.seqT := h .seqT rfl
    obtain ⟨-, hbit⟩ := kbit_eq_of_sameReads h rfl
    simp only [Micro.run, doLadderSwap, hT, hbit]
    exact doCswap2_reg_congr _ hreg hr
  | ladderUnswap =>
    have hT : s.seqT = t.seqT := h .seqT rfl
    simp only [Micro.run, doLadderUnswap, hT]
    exact doCswap2_reg_congr _ hreg hr
  | fdec d slot | fldr d slot =>
    have hslot : s.readSlot slot = t.readSlot slot :=
      readSlot_congr fun a ha => h (.byte a) (by simp [Micro.command, readsByte, ha])
    exact reg_setReg_congr (by rw [hslot]) fun hne => absurd hr (by simpa [Micro.command, writesReg] using hne)
  | _ => simp_all [Micro.command, readsReg, writesReg, Micro.run, doFadd, doFsub, doFmul, doFsqr, doFmuls, doFmov, doFseti]

theorem run_byte_congr {m : Micro} {s t : State} (hs : Memory.wf s.buf) (ht : Memory.wf t.buf) (h : SameReads m s t)
    {a : Nat} (ha : writesByte m.command a = true) : (m.run s).buf.read a = (m.run t).buf.read a := by
  rw [run_buf, run_buf]
  cases m with
  | fenc slot r | fstr slot r =>
    have hr : s.reg r = t.reg r := h (.reg r) (by simp [Micro.command, readsReg])
    simp only [writeSlot_buf, hr]
    exact read_writeLE_congr hs ht ha _
  | wipe => rfl
  | _ => cases ha

theorem run_seq_congr {m : Micro} {s t : State} (h : SameReads m s t) (hm : m.setsSequencer = true) :
    (m.run s).seqT = (m.run t).seqT ∧ (m.run s).seqI = (m.run t).seqI := by
  cases m with
  | ladderNext =>
    obtain ⟨hI, hbit⟩ := kbit_eq_of_sameReads h rfl
    exact ⟨hbit, congrArg (· - 1#8) hI⟩
  | ladderStart | ladderEnd => exact ⟨rfl, rfl⟩
  | _ => cases hm

/-- A line that reads the same in two states writes the same. -/
theorem run_same_of_written {m : Micro} {s t : State} (hs : Memory.wf s.buf) (ht : Memory.wf t.buf)
    (h : SameReads m s t) {l : Loc} (hl : m.writes l = true) : l.Same (m.run s) (m.run t) := by
  cases l with
  | reg r => exact run_reg_congr h hl
  | byte a => exact run_byte_congr hs ht h hl
  | seqT => exact (run_seq_congr h hl).1
  | seqI => exact (run_seq_congr h hl).2

end Sys2Proof.Machine
end


section
/-! The two rules of 10_state.md R24 for a sequence of lines: a location that no line writes keeps its value, and what
the lines write depends on what is known at the start. -/

namespace Sys2Proof.Machine

/-- What some line of a sequence writes. -/
def writesAny (ms : List Micro) (l : Loc) : Bool := ms.any fun m => m.writes l

@[simp] theorem writesAny_nil (l : Loc) : writesAny [] l = false := rfl

@[simp] theorem writesAny_cons (m : Micro) (ms : List Micro) (l : Loc) :
    writesAny (m :: ms) l = (m.writes l || writesAny ms l) := rfl

@[simp] theorem writesAny_append (ms ns : List Micro) (l : Loc) :
    writesAny (ms ++ ns) l = (writesAny ms l || writesAny ns l) := List.any_append

theorem runMicro_same_of_not_written {l : Loc} : ∀ {ms : List Micro}, writesAny ms l = false → ∀ s : State,
    l.Same (runMicro ms s) s
  | [], _, s => .refl l s
  | m :: ms, h, s => by
    obtain ⟨hm, hms⟩ := Bool.or_eq_false_iff.1 h
    exact (runMicro_same_of_not_written hms (m.run s)).trans (run_same_of_not_written hm s)

/-- Each line reads only what is known at the start or what a line before it wrote. -/
def Covered : (Loc → Bool) → List Micro → Prop
  | _, [] => True
  | known, m :: ms => (∀ l, m.reads l = true → known l = true) ∧ Covered (fun l => known l || m.writes l) ms

theorem Covered.mono : ∀ {ms : List Micro} {known known' : Loc → Bool}, (∀ l, known l = true → known' l = true) →
    Covered known ms → Covered known' ms
  | [], _, _, _, _ => trivial
  | m :: ms, known, known', h, ⟨hm, hms⟩ => by
    refine ⟨fun l hl => h l (hm l hl), Covered.mono (fun l hl => ?_) hms⟩
    rw [Bool.or_eq_true] at hl ⊢
    exact hl.imp_left (h l)

theorem Covered.append : ∀ {ms ns : List Micro} {known : Loc → Bool}, Covered known ms →
    Covered (fun l => known l || writesAny ms l) ns → Covered known (ms ++ ns)
  | [], _, _, _, hns => by simpa using hns
  | m :: ms, ns, known, ⟨hm, hms⟩, hns => ⟨hm, hms.append (by simpa [Bool.or_assoc] using hns)⟩

/-- What is known at the start and what the lines write is the same after the lines, if it was known in both states. -/
theorem runMicro_same_of_covered : ∀ {ms : List Micro} {known : Loc → Bool} {s t : State}, Covered known ms →
    Memory.wf s.buf → Memory.wf t.buf → (∀ l, known l = true → l.Same s t) →
    ∀ l, (known l || writesAny ms l) = true → l.Same (runMicro ms s) (runMicro ms t)
  | [], _, _, _, _, _, _, h, l, hl => h l (by simpa using hl)
  | m :: ms, known, s, t, ⟨hm, hms⟩, hs, ht, h, l, hl => by
    refine runMicro_same_of_covered hms (run_wf m s hs) (run_wf m t ht) (fun x hx => ?_) l (by
      simpa [Bool.or_assoc] using hl)
    cases hw : m.writes x with
    | true => exact run_same_of_written hs ht (fun y hy => h y (hm y hy)) hw
    | false =>
      have hx' : known x = true := by simpa [hw] using hx
      exact ((run_same_of_not_written hw s).trans (h x hx')).trans (run_same_of_not_written hw t).symm

/-- A sequence that the start alone covers may follow another. -/
theorem Covered.append_of_covered {ms ns : List Micro} {known : Loc → Bool} (hms : Covered known ms)
    (hns : Covered known ns) : Covered known (ms ++ ns) :=
  hms.append (hns.mono fun l hl => by simp [hl])

/-- A sequence that the columns of a command cover is covered wherever these registers and bytes are known. -/
theorem Covered.of_columnReads {i : Instr} {ms : List Micro} {known : Loc → Bool} (h : Covered (columnReads i) ms)
    (hreg : ∀ r, readsReg i r = true → known (.reg r) = true)
    (hbyte : ∀ a, readsByte i a = true → known (.byte a) = true) : Covered known ms :=
  h.mono (forall_columnReads_iff.2 ⟨hreg, hbyte⟩)

@[simp] theorem covered_nil (known : Loc → Bool) : Covered known [] ↔ True := Iff.rfl

/-- `Covered`, spread over the kinds of locations. -/
@[simp] theorem covered_cons (known : Loc → Bool) (m : Micro) (ms : List Micro) :
    Covered known (m :: ms) ↔
      ((∀ r, m.reads (.reg r) = true → known (.reg r) = true) ∧
          (∀ a, m.reads (.byte a) = true → known (.byte a) = true) ∧
        (m.reads .seqT = true → known .seqT = true) ∧ (m.reads .seqI = true → known .seqI = true)) ∧
      Covered (fun l => known l || m.writes l) ms := by
  rw [Covered, Loc.forall_iff]

end Sys2Proof.Machine
end


section
/-! The columns of 10_state.md R24 as the lines of the commands have them: `linesOf i` writes exactly the column "writes" of
`i`, and reads no more than the column "reads" before writing it. -/

namespace Sys2Proof.Machine

/-! ### What the lines write -/

theorem writesAny_singleton (m : Micro) (l : Loc) : writesAny [m] l = m.writes l := by simp

theorem writesAny_sqn (t x : RegIdx) (n : Nat) (l : Loc) : writesAny (sqn t x n) l = (Micro.fsqr t x).writes l := by
  cases l <;> simp [sqn, writesAny, Micro.command, writesReg, writesByte, Micro.setsSequencer]

theorem isTemporary_iff : ∀ r : RegIdx, isTemporary r = true ↔ r = 6 ∨ r = 7 ∨ r = 8 ∨ r = 9 := by decide

theorem writesAny_finvLines_reg (d a r : RegIdx) : writesAny (finvLines d a) (.reg r) = writesReg (.finv d a) r := by
  rw [Bool.eq_iff_iff]
  simp [finvLines, writesAny_sqn, Micro.command, writesReg, isTemporary_iff]
  tauto

theorem writesAny_finvLines_byte (d a : RegIdx) (b : Nat) : writesAny (finvLines d a) (.byte b) = false := by
  simp [finvLines, writesAny_sqn, Micro.command, writesByte]

theorem writesAny_padblLines_reg (r : RegIdx) : writesAny padblLines (.reg r) = writesReg .padbl r := by
  revert r; decide

theorem writesAny_pdblLines_reg (r : RegIdx) : writesAny pdblLines (.reg r) = writesReg .pdbl r := by
  revert r; decide

/-- Every iteration writes the same. -/
theorem writesAny_ladderLoop (n : Nat) (l : Loc) : writesAny (ladderLoop (n + 1)) l = writesAny ladderIteration l := by
  induction n with
  | zero => exact (writesAny_append _ _ _).trans (Bool.or_false _)
  | succ n ih => rw [ladderLoop, writesAny_append, ih, Bool.or_self]

theorem writesAny_ladderLines (l : Loc) :
    writesAny ladderLines l = (writesAny ladderInit l || writesAny ladderIteration l || writesAny ladderTail l) := by
  rw [ladderLines, writesAny_append, writesAny_append, show Config.NSTEP = 251 + 1 from rfl, writesAny_ladderLoop]

theorem writesAny_ladderLines_reg (r : RegIdx) : writesAny ladderLines (.reg r) = writesReg .ladder r := by
  rw [writesAny_ladderLines]
  revert r; decide

theorem writesAny_ladderLines_byte (b : Nat) : writesAny ladderLines (.byte b) = false := by
  rw [writesAny_ladderLines]
  rfl

theorem writesAny_x25519Lines_reg (r : RegIdx) : writesAny x25519Lines (.reg r) = writesReg .x25519 r := by
  simp only [x25519Lines, encodePointLines, writesAny_append, writesAny_ladderLines_reg, writesAny_finvLines_reg]
  revert r; decide

theorem writesAny_x25519Lines_byte (b : Nat) : writesAny x25519Lines (.byte b) = inSlot 2 b := by
  simp only [x25519Lines, encodePointLines, writesAny_append, writesAny_ladderLines_byte, writesAny_finvLines_byte]
  simp [Micro.command, writesByte, clearWorkLines]

/-- The lines of a command write the registers of its column "writes", no more and no fewer. -/
theorem writesAny_linesOf_reg (i : Instr) (r : RegIdx) : writesAny (linesOf i) (.reg r) = writesReg i r := by
  cases i with
  | nop => rfl
  | padbl => exact writesAny_padblLines_reg r
  | pdbl => exact writesAny_pdblLines_reg r
  | finv d a => exact writesAny_finvLines_reg d a r
  | ladder => exact writesAny_ladderLines_reg r
  | x25519 => exact writesAny_x25519Lines_reg r
  | _ => exact writesAny_singleton _ _

/-- The lines of a command write the bytes of its column "writes", no more and no fewer. -/
theorem writesAny_linesOf_byte (i : Instr) (b : Nat) : writesAny (linesOf i) (.byte b) = writesByte i b := by
  cases i with
  | nop | padbl | pdbl => rfl
  | finv d a => exact writesAny_finvLines_byte d a b
  | ladder => exact writesAny_ladderLines_byte b
  | x25519 => exact writesAny_x25519Lines_byte b
  | _ => exact writesAny_singleton _ _

/-! ### What the lines read -/

theorem covered_replicate_fsqr {known : Loc → Bool} {t : RegIdx} (h : known (.reg t) = true) (n : Nat) :
    Covered known (List.replicate n (.fsqr t t)) := by
  induction n with
  | zero => trivial
  | succ n ih =>
    refine Covered.append_of_covered (ms := [.fsqr t t]) ?_ ih
    simp [Micro.command, Micro.readsT, Micro.readsKbit, readsReg, readsByte, h]

theorem covered_sqn {known : Loc → Bool} (t : RegIdx) {x : RegIdx} (n : Nat) (h : known (.reg x) = true) :
    Covered known (sqn t x n) :=
  Covered.append (ms := [.fsqr t x])
    (by simp [Micro.command, Micro.readsT, Micro.readsKbit, readsReg, readsByte, h])
    (covered_replicate_fsqr (by simp [Micro.command, writesReg]) (n - 1))

/-- Each line of the chain reads the source or what a line before it wrote, whatever the source and the destination are. -/
theorem covered_finvLines (d a : RegIdx) : Covered (columnReads (.finv d a)) (finvLines d a) := by
  simp only [finvLines, List.flatten_cons, List.flatten_nil]
  repeat' apply Covered.append
  any_goals apply covered_sqn
  all_goals simp [Micro.command, Micro.readsT, Micro.readsKbit, readsReg, readsByte, writesReg, writesAny_sqn]

theorem covered_padblLines : Covered (columnReads .padbl) padblLines := by
  simp [padblLines, Micro.command, Micro.readsT, Micro.readsKbit, readsReg, readsByte, writesReg, pairEven,
    pairOdd, or_imp, forall_and]

theorem covered_pdblLines : Covered (columnReads .pdbl) pdblLines := by
  simp [pdblLines, Micro.command, Micro.readsT, Micro.readsKbit, readsReg, readsByte, writesReg, pairEven,
    pairOdd, or_imp, forall_and]

/-- What the ladder's loop starts from: X1, the scalar, and what the initial state sets (43_ladder.md R162, R163). -/
def loopKnows (l : Loc) : Bool := columnReads .ladder l || writesAny ladderInit l

/-- The points of the ladder are X1 and the two pairs that PADBL reads. -/
theorem loopKnows_reg {r : RegIdx} (h : readsReg .padbl r = true) : loopKnows (.reg r) = true := by
  revert r; decide

theorem loopKnows_byte {a : Nat} (h : inSlot 0 a = true) : loopKnows (.byte a) = true := by
  simp [loopKnows, readsByte, h]

/-- A line that reads the points, the scalar, T and i may stand in the loop and after it. -/
theorem covered_loopKnows_singleton {m : Micro} (hreg : ∀ r, m.reads (.reg r) = true → readsReg .padbl r = true)
    (hbyte : ∀ a, m.reads (.byte a) = true → inSlot 0 a = true) : Covered loopKnows [m] :=
  ⟨Loc.forall_iff.2 ⟨fun r h => loopKnows_reg (hreg r h), fun a h => loopKnows_byte (hbyte a h), fun _ => rfl,
    fun _ => rfl⟩, trivial⟩

theorem covered_ladderIteration : Covered loopKnows ladderIteration := by
  have hswap : Covered loopKnows [.ladderSwap] :=
    covered_loopKnows_singleton (by decide) (by simp [Micro.command, Micro.readsKbit, readsByte])
  have hpadbl : Covered loopKnows padblLines := covered_padblLines.of_columnReads (fun _ => loopKnows_reg) nofun
  have hnext : Covered loopKnows [.ladderNext] :=
    covered_loopKnows_singleton (by decide) (by simp [Micro.command, Micro.readsKbit, readsByte])
  exact (hswap.append_of_covered hpadbl).append_of_covered hnext

theorem covered_ladderLoop : ∀ n, Covered loopKnows (ladderLoop n)
  | 0 => trivial
  | n + 1 => covered_ladderIteration.append_of_covered (covered_ladderLoop n)

theorem covered_ladderTail : Covered loopKnows ladderTail := by
  have hreads : ∀ r, readsReg .pdbl r = true → readsReg .padbl r = true := by decide
  have hunswap : Covered loopKnows [.ladderUnswap] :=
    covered_loopKnows_singleton (by decide) (by simp [Micro.command, Micro.readsKbit, readsByte])
  have hpdbl : Covered loopKnows pdblLines :=
    covered_pdblLines.of_columnReads (fun r h => loopKnows_reg (hreads r h)) nofun
  have hend : Covered loopKnows [.ladderEnd] :=
    covered_loopKnows_singleton (by decide) (by simp [Micro.command, Micro.readsKbit, readsByte])
  exact (((hunswap.append_of_covered hpdbl).append_of_covered hpdbl).append_of_covered hpdbl).append_of_covered hend

theorem covered_ladderLines : Covered (columnReads .ladder) ladderLines := by
  have hinit : Covered (columnReads .ladder) ladderInit := by
    simp [ladderInit, Micro.command, Micro.readsT, Micro.readsKbit, readsReg, readsByte]
  rw [ladderLines, List.append_assoc]
  exact hinit.append ((covered_ladderLoop _).append_of_covered covered_ladderTail)

theorem covered_encodePointLines {known : Loc → Bool} (h2 : known (.reg 2) = true) (h3 : known (.reg 3) = true) :
    Covered known encodePointLines := by
  refine Covered.append ((covered_finvLines 1 3).of_columnReads (by simp [readsReg, h3]) nofun) ?_
  simp [Micro.command, Micro.readsT, Micro.readsKbit, readsReg, readsByte, writesReg, writesAny_finvLines_reg, h2]

theorem covered_clearWorkLines (known : Loc → Bool) : Covered known clearWorkLines := by
  simp [clearWorkLines, Micro.command, Micro.readsT, Micro.readsKbit, readsReg, readsByte]

/-- FDEC gives the ladder its X1, the ladder gives the point encoding f2 and f3 (45_codec_toplevel.md R198). -/
theorem covered_x25519Lines : Covered (columnReads .x25519) x25519Lines := by
  have hfdec : Covered (columnReads .x25519) [.fdec 0 1] := by
    simp +contextual [Micro.command, Micro.readsT, Micro.readsKbit, readsReg, readsByte]
  refine ((hfdec.append (covered_ladderLines.of_columnReads ?_ ?_)).append (covered_encodePointLines ?_ ?_)).append
    (covered_clearWorkLines _)
  · simp [Micro.command, readsReg, writesReg]
  · simp +contextual [readsByte]
  · simp [writesAny_ladderLines_reg, writesReg]
  · simp [writesAny_ladderLines_reg, writesReg]

theorem covered_singleton {m : Micro} (hT : m.readsT = false) (hk : m.readsKbit = false) :
    Covered (columnReads m.command) [m] := by
  simp [hT, hk]

/-- The lines of a command read its column "reads" and what they wrote themselves. -/
theorem covered_linesOf (i : Instr) : Covered (columnReads i) (linesOf i) := by
  cases i with
  | nop => trivial
  | padbl => exact covered_padblLines
  | pdbl => exact covered_pdblLines
  | finv d a => exact covered_finvLines d a
  | ladder => exact covered_ladderLines
  | x25519 => exact covered_x25519Lines
  | _ => exact covered_singleton rfl rfl

end Sys2Proof.Machine
end


section
/-! Every command on every state: what its results depend on, what it leaves, and that T and i are at rest after it
(10_state.md R24, R33, R36). -/

namespace Sys2Proof.Machine

/-- Settles O9: the reads of the command's lines are covered by its column, and its column "writes" is what they write. -/
theorem resultsDependOnTheReadRegistersAndBytes : Obligations.ResultsDependOnTheReadRegistersAndBytes := by
  intro i s s' hs hs' hreg hbyte
  have hknown : ∀ l, columnReads i l = true → l.Same s s' := forall_columnReads_iff.2 ⟨hreg, hbyte⟩
  have hsame := runMicro_same_of_covered (covered_linesOf i) hs hs' hknown
  refine ⟨_, _, exec_eq_runMicro i s, exec_eq_runMicro i s', fun r hr => hsame (.reg r) ?_,
    fun a ha => hsame (.byte a) ?_⟩
  · simp [writesAny_linesOf_reg, hr]
  · simp [writesAny_linesOf_byte, ha]

/-- Settles O8: no line writes what is not in the column. -/
theorem onlyTheWrittenRegistersAndBytesChange : Obligations.OnlyTheWrittenRegistersAndBytesChange := by
  intro i s
  refine ⟨_, exec_eq_runMicro i s, fun r hr => ?_, fun a ha => ?_⟩
  · exact runMicro_same_of_not_written (l := .reg r) ((writesAny_linesOf_reg i r).trans hr) s
  · exact runMicro_same_of_not_written (l := .byte a) ((writesAny_linesOf_byte i a).trans ha) s

/-! ### T and i -/

/-- T and i hold their reset value, as they do between commands (10_state.md R36, R38; log 4). -/
abbrev SequencerAtRest (s : State) : Prop := s.seqT = false ∧ s.seqI = 0#8

theorem runMicro_atRest {ms : List Micro} (h : writesAny ms .seqT = false) {s : State} (hs : SequencerAtRest s) :
    SequencerAtRest (runMicro ms s) := by
  have hT : (runMicro ms s).seqT = s.seqT := runMicro_same_of_not_written (l := .seqT) h s
  have hI : (runMicro ms s).seqI = s.seqI := runMicro_same_of_not_written (l := .seqI) h s
  rwa [SequencerAtRest, hT, hI]

/-- LADDER gives T and i back, whatever they were (43_ladder.md R166). -/
theorem runMicro_ladderLines_atRest (s : State) : SequencerAtRest (runMicro ladderLines s) := by
  rw [ladderLines, ladderTail, ← List.append_assoc, runMicro_append]
  exact ⟨rfl, rfl⟩

theorem runMicro_x25519Lines_atRest (s : State) : SequencerAtRest (runMicro x25519Lines s) := by
  have hrest : writesAny (encodePointLines ++ clearWorkLines) .seqT = false := by
    simp [encodePointLines, finvLines, clearWorkLines, writesAny_sqn, Micro.setsSequencer]
  rw [x25519Lines, List.append_assoc, runMicro_append, runMicro_append [_] ladderLines]
  exact runMicro_atRest hrest (runMicro_ladderLines_atRest _)

theorem runMicro_linesOf_atRest (i : Instr) {s : State} (hs : SequencerAtRest s) :
    SequencerAtRest (runMicro (linesOf i) s) := by
  cases i with
  | ladder => exact runMicro_ladderLines_atRest s
  | x25519 => exact runMicro_x25519Lines_atRest s
  | finv d a =>
    refine runMicro_atRest ?_ hs
    simp [linesOf, finvLines, writesAny_sqn, Micro.setsSequencer]
  | _ => exact runMicro_atRest rfl hs

/-- Settles O7: by the frame of a sequence of lines; LADDER and X25519 give T and i back, no other command sets
them. -/
theorem commandsTouchOnlyRegistersAndBuffer : Obligations.CommandsTouchOnlyRegistersAndBuffer := by
  intro i s
  exact ⟨_, exec_eq_runMicro i s, runMicro_sameOutside _ s, fun hT hI => runMicro_linesOf_atRest i ⟨hT, hI⟩⟩

end Sys2Proof.Machine
end


section
/-! What a host access can do, said once: an issue step, a write to STATUS, or an access that touches the windows only
(10_state.md R29 to R32; 20_memory.md R56 to R62). -/

namespace Sys2Proof.Machine

theorem bytes_eq_four_iff (width : HostWidth) : width.bytes = 4 ↔ width = .w4 := by
  cases width <;> decide

theorem hostTarget_eq_cmd {addr : BitVec 10} {width : HostWidth} (h : hostTarget addr width = .cmd) :
    addr = 0x000 ∧ width = .w4 := by
  simp only [hostTarget] at h
  split_ifs at h with hcmd
  exact ⟨BitVec.eq_of_toNat_eq hcmd.1, (bytes_eq_four_iff width).1 hcmd.2⟩

theorem hostTarget_eq_status {addr : BitVec 10} {width : HostWidth} (h : hostTarget addr width = .status) :
    addr = 0x004 ∧ width = .w4 := by
  simp only [hostTarget] at h
  split_ifs at h with _ hstatus
  exact ⟨BitVec.eq_of_toNat_eq hstatus.1, (bytes_eq_four_iff width).1 hstatus.2⟩

/-- `t` differs from `s` in `f`, BUF, BACC and the answers at most; BACC did not fall, and BUF is canonical if it was: what
an access that writes neither CMD nor STATUS does (20_memory.md R57 to R62). -/
structure WindowsOnly (s t : State) : Prop where
  cmdr : t.cmdr = s.cmdr
  busy : t.busy = s.busy
  done : t.done = s.done
  ill : t.ill = s.ill
  bacc : s.bacc = true → t.bacc = true
  seqT : t.seqT = s.seqT
  seqI : t.seqI = s.seqI
  schedule : t.schedule = s.schedule
  buf : Memory.wf s.buf → Memory.wf t.buf

theorem WindowsOnly.refl (s : State) : WindowsOnly s s := ⟨rfl, rfl, rfl, rfl, id, rfl, rfl, rfl, id⟩

theorem windowsOnly_raiseBusyAccess (s : State) : WindowsOnly s (raiseBusyAccess s) :=
  ⟨rfl, rfl, rfl, rfl, fun _ => rfl, rfl, rfl, rfl, id⟩

theorem windowsOnly_setWindowLE (s : State) (k n v : Nat) : WindowsOnly s (s.setWindowLE k n v) := by
  rw [setWindowLE_eq]
  exact ⟨rfl, rfl, rfl, rfl, id, rfl, rfl, rfl, id⟩

theorem windowsOnly_readEffect (addr : BitVec 10) (width : HostWidth) (s : State) :
    WindowsOnly s (readEffect addr width s) := by
  unfold readEffect
  cases hostTarget addr width with
  | cmd | status | unmapped => exact .refl s
  | bufWindow offset | regWindow offset =>
    dsimp only
    split
    · exact windowsOnly_raiseBusyAccess s
    · exact .refl s

/-- Everything a host access can have been: a write to CMD, a write to STATUS, or an access that touches the windows
only. -/
theorem hostAccess_cases (a : HostAccess) (s : State) :
    (∃ v, a = .write 0x000 .w4 v ∧ hostAccess a s = issue (v.truncate 32) s) ∨
    (∃ v, a = .write 0x004 .w4 v ∧ hostAccess a s = clearFlags (v.truncate 32) s) ∨
    WindowsOnly s (hostAccess a s) := by
  cases a with
  | read addr width =>
    obtain ⟨hcmdr, hbusy, hdone, hill, hbacc, hT, hI, hsched, hbuf⟩ := windowsOnly_readEffect addr width s
    exact .inr (.inr ⟨hcmdr, hbusy, hdone, hill, hbacc, hT, hI, hsched, hbuf⟩)
  | write addr width v =>
    simp only [hostAccess, writeEffect]
    cases h : hostTarget addr width with
    | cmd =>
      obtain ⟨rfl, rfl⟩ := hostTarget_eq_cmd h
      exact .inl ⟨v, rfl, rfl⟩
    | status =>
      obtain ⟨rfl, rfl⟩ := hostTarget_eq_status h
      exact .inr (.inl ⟨v, rfl, rfl⟩)
    | bufWindow offset =>
      refine .inr (.inr ?_)
      dsimp only
      split
      · exact windowsOnly_raiseBusyAccess s
      · exact ⟨rfl, rfl, rfl, rfl, id, rfl, rfl, rfl, fun hwf => Memory.wf_writeLE _ _ hwf (hostTarget_bufWindow h)⟩
    | regWindow offset =>
      refine .inr (.inr ?_)
      dsimp only
      split
      · exact windowsOnly_raiseBusyAccess s
      · exact windowsOnly_setWindowLE s _ _ _
    | unmapped => exact .inr (.inr (.refl s))

end Sys2Proof.Machine
end


section
/-! The invariant holds at reset and every step keeps it; with it, a BUSY unit completes (10_state.md R30 to R36; log 1). -/

namespace Sys2Proof.Machine

theorem inv_takeTurn {s : State} (h : Inv s) : Inv (takeTurn s).2 := by
  simpa [Inv] using h

theorem inv_issue {s : State} (w : Word) (h : Inv s) : Inv (issue w s) := by
  obtain ⟨hwf, hlegal, hflags, hrest⟩ := h
  obtain ⟨-, e⟩ | ⟨-, hw, e⟩ | ⟨-, -, e⟩ := issue_cases w s
  · rw [e]; exact ⟨hwf, hlegal, hflags, hrest⟩
  · rw [e]; exact ⟨hwf, hw, by simp, hrest⟩
  · rw [e]; exact ⟨hwf, hlegal, hflags, hrest⟩

theorem inv_clearFlags {s : State} (w : Word) (h : Inv s) : Inv (clearFlags w s) := by
  obtain ⟨hwf, hlegal, hflags, hrest⟩ := h
  refine ⟨hwf, hlegal, fun ⟨hb, hd⟩ => ?_, hrest⟩
  rw [clearFlags_done, Bool.and_eq_true] at hd
  exact hflags ⟨hb, hd.1⟩

theorem inv_of_windowsOnly {s t : State} (hst : WindowsOnly s t) (h : Inv s) : Inv t := by
  obtain ⟨hwf, hlegal, hflags, hT, hI⟩ := h
  exact ⟨hst.buf hwf, by rwa [hst.cmdr], by rwa [hst.busy, hst.done], by rwa [hst.seqT], by rwa [hst.seqI]⟩

theorem inv_hostAccess {s : State} (a : HostAccess) (h : Inv s) : Inv (hostAccess a s) := by
  obtain ⟨v, -, e⟩ | ⟨v, -, e⟩ | hw := hostAccess_cases a s
  · rw [e]; exact inv_issue _ h
  · rw [e]; exact inv_clearFlags _ h
  · exact inv_of_windowsOnly hw h

/-- 0, CMDR's reset value, is the word of NOP. -/
theorem legal_zero : legal 0#32 = true := by decide

theorem inv_resetUnit (s : State) : Inv (resetUnit s) :=
  ⟨Memory.wf_nil, legal_zero, by simp, rfl, rfl⟩

/-- A completion leaves DONE set and BUSY clear, and T and i at rest. -/
theorem inv_completion {s : State} (i : Instr) (h : Inv s) : Inv (markDone (runMicro (linesOf i) s)) := by
  obtain ⟨hwf, hlegal, -, hrest⟩ := h
  obtain ⟨hcmdr, -⟩ := runMicro_sameOutside (linesOf i) s
  exact ⟨runMicro_wf _ s hwf, by rwa [markDone_cmdr, hcmdr], by simp, runMicro_linesOf_atRest i hrest⟩

/-- Settles O11, one lemma per turn a step can have been. -/
theorem everyStepKeepsTheInvariant : Obligations.EveryStepKeepsTheInvariant := by
  intro s t hinv hstep
  have hinv' := inv_takeTurn hinv
  obtain ⟨a, -, rfl⟩ | ⟨-, rfl⟩ | ⟨-, -, rfl⟩ | ⟨-, -, i, -, rfl⟩ := step_cases hstep
  · exact inv_hostAccess a hinv'
  · exact inv_resetUnit _
  · exact hinv'
  · exact inv_completion i hinv'

/-- Settles O10: the reset state is what the reset event leaves of it. -/
theorem invariantHoldsAtReset : Obligations.InvariantHoldsAtReset := inv_resetUnit State.reset

/-! ### Completion -/

theorem takeTurn_schedule (s : State) : (takeTurn s).2.schedule = s.schedule.tail := by
  unfold takeTurn
  split <;> simp_all

theorem issue_schedule (w : Word) (s : State) : (issue w s).schedule = s.schedule := by
  obtain ⟨-, e⟩ | ⟨-, -, e⟩ | ⟨-, -, e⟩ := issue_cases w s <;> rw [e] <;> rfl

theorem hostAccess_schedule (a : HostAccess) (s : State) : (hostAccess a s).schedule = s.schedule := by
  obtain ⟨v, -, e⟩ | ⟨v, -, e⟩ | hw := hostAccess_cases a s
  · rw [e]; exact issue_schedule _ s
  · rw [e]; rfl
  · exact hw.schedule

theorem step_schedule {s t : State} (h : step s = .next t) : t.schedule = s.schedule.tail := by
  rw [← takeTurn_schedule]
  obtain ⟨a, -, rfl⟩ | ⟨-, rfl⟩ | ⟨-, -, rfl⟩ | ⟨-, -, i, -, rfl⟩ := step_cases h
  · exact hostAccess_schedule a _
  · rfl
  · rfl
  · obtain ⟨-, -, -, -, -, hsched, -⟩ := runMicro_sameOutside (linesOf i) (takeTurn s).2
    exact hsched

/-- After the unit's turn the unit is idle (10_state.md R33). -/
theorem step_idle_of_unit {s t : State} (hturn : (takeTurn s).1 = .unit) (h : step s = .next t) : t.busy = false := by
  obtain ⟨a, ha, -⟩ | ⟨hr, -⟩ | ⟨-, hb, rfl⟩ | ⟨-, -, i, -, rfl⟩ := step_cases h
  · rw [hturn] at ha; cases ha
  · rw [hturn] at hr; cases hr
  · simpa using hb
  · rfl

theorem core_run_succ {s t : State} (h : step s = .next t) (k : Nat) : core.run (k + 1) s = core.run k t := by
  simp [Host.Core.run, core, h]

/-- Settles O13, by induction on the schedule: each step takes one turn, and the last is the unit's. -/
theorem theUnitBecomesIdle : Obligations.TheUnitBecomesIdle := by
  intro s hinv
  generalize hsched : s.schedule = turns
  induction turns generalizing s with
  | nil =>
    obtain ⟨t, ht⟩ := noStepStops s hinv
    exact ⟨t, core_run_succ ht 0, step_idle_of_unit (by simp [takeTurn, hsched]) ht, by simp [step_schedule ht, hsched]⟩
  | cons turn rest ih =>
    obtain ⟨t, ht⟩ := noStepStops s hinv
    obtain ⟨u, hrun, hu⟩ := ih t (everyStepKeepsTheInvariant s t hinv ht) (by simp [step_schedule ht, hsched])
    exact ⟨u, (core_run_succ ht _).trans hrun, hu⟩

end Sys2Proof.Machine
end


section
/-! How CMDR and the four flags of STATUS change in a step (10_state.md R28 to R33; 20_memory.md R70). -/

namespace Sys2Proof.Machine

/-- Settles O14: of all a step can have been, an accepted issue and a reset alone write CMDR. -/
theorem cmdrChangesOnlyByIssueOrReset : Obligations.CmdrChangesOnlyByIssueOrReset := by
  intro s t hstep hne
  obtain ⟨a, hturn, rfl⟩ | ⟨hturn, -⟩ | ⟨-, -, rfl⟩ | ⟨-, -, i, -, rfl⟩ := step_cases hstep
  · obtain ⟨v, rfl, e⟩ | ⟨v, -, e⟩ | hw := hostAccess_cases a (takeTurn s).2
    · rw [e] at hne ⊢
      obtain ⟨-, e'⟩ | ⟨hb, hlegal, e'⟩ | ⟨-, -, e'⟩ := issue_cases (v.truncate 32) (takeTurn s).2
      · exact absurd (by simp [e']) hne
      · exact .inr ⟨v, hturn, by simpa using hb, hlegal, by rw [e']; rfl⟩
      · exact absurd (by simp [e']) hne
    · exact absurd (by simp [e]) hne
    · exact absurd (by simp [hw.cmdr]) hne
  · exact .inl hturn
  · exact absurd (by simp) hne
  · obtain ⟨hcmdr, -⟩ := runMicro_sameOutside (linesOf i) (takeTurn s).2
    exact absurd (by simp [hcmdr]) hne

/-- An issue step clears no sticky flag, DONE only when it accepts, and never BUSY (10_state.md R32). -/
theorem issue_flags (w : Word) (s : State) :
    (s.ill = true → (issue w s).ill = true) ∧ (s.bacc = true → (issue w s).bacc = true) ∧
    (s.done = true → (issue w s).done = false → (issue w s).busy = true) ∧
    (s.busy = true → (issue w s).busy = true) := by
  obtain ⟨-, e⟩ | ⟨-, -, e⟩ | ⟨-, -, e⟩ := issue_cases w s <;> simp +contextual [e]

/-- Settles O15, by the cases of a step and of a host access. -/
theorem flagsAreClearedOnlyAsStated : Obligations.FlagsAreClearedOnlyAsStated := by
  intro s t hstep
  obtain ⟨a, hturn, rfl⟩ | ⟨hturn, -⟩ | ⟨-, -, rfl⟩ | ⟨hturn, -, i, -, rfl⟩ := step_cases hstep
  · obtain ⟨v, rfl, e⟩ | ⟨v, rfl, e⟩ | hw := hostAccess_cases a (takeTurn s).2
    · obtain ⟨hill, hbacc, hdone, hbusy⟩ := issue_flags (v.truncate 32) (takeTurn s).2
      simp only [takeTurn_ill, takeTurn_bacc, takeTurn_done, takeTurn_busy] at hill hbacc hdone hbusy
      rw [e]
      exact ⟨fun h h' => by simp [hill h] at h', fun h h' => by simp [hbacc h] at h',
        fun h h' => .inr (.inr ⟨v, hturn, hdone h h'⟩), fun h h' => by simp [hbusy h] at h'⟩
    · rw [e]
      exact ⟨fun h h' => .inr ⟨v, hturn, by simpa [h] using h'⟩,
        fun h h' => .inr ⟨v, hturn, by simpa [h] using h'⟩,
        fun h h' => .inr (.inl ⟨v, hturn, by simpa [h] using h'⟩), fun h h' => by simp [h] at h'⟩
    · have hbacc := hw.bacc
      rw [takeTurn_bacc] at hbacc
      exact ⟨fun h h' => by simp [hw.ill, h] at h', fun h h' => by simp [hbacc h] at h',
        fun h h' => by simp [hw.done, h] at h', fun h h' => by simp [hw.busy, h] at h'⟩
  · exact ⟨fun _ _ => .inl hturn, fun _ _ => .inl hturn, fun _ _ => .inl hturn, fun _ _ => .inl hturn⟩
  · simp +contextual
  · obtain ⟨-, -, -, hill, hbacc, -⟩ := runMicro_sameOutside (linesOf i) (takeTurn s).2
    exact ⟨fun h h' => by simp [hill, h] at h', fun h h' => by simp [hbacc, h] at h', fun _ h' => by simp at h',
      fun _ _ => .inr ⟨hturn, rfl⟩⟩

end Sys2Proof.Machine
end


section
/-! One step with a given turn next: the issue step, reads and writes of STATUS, the unit's turn (10_state.md R29 to R33,
R38). -/

namespace Sys2Proof.Machine

theorem step_host (s : State) (rest : List Turn) (a : HostAccess) :
    step { s with schedule := .host a :: rest } = .next (hostAccess a { s with schedule := rest }) := rfl

theorem step_unit (s : State) (rest : List Turn) :
    step { s with schedule := .unit :: rest } = unitTurn { s with schedule := rest } := rfl

theorem hostAccess_write_cmd (value : BitVec 64) (s : State) :
    hostAccess (.write 0x000 .w4 value) s = issue (value.truncate 32) s := rfl

theorem hostAccess_write_status (value : BitVec 64) (s : State) :
    hostAccess (.write 0x004 .w4 value) s = clearFlags (value.truncate 32) s := rfl

theorem hostAccess_read_status (s : State) :
    hostAccess (.read 0x004 .w4) s = { s with answers := s.answers ++ [(statusWord s).zeroExtend 64] } := rfl

theorem hostAccess_read_cmd (s : State) :
    hostAccess (.read 0x000 .w4) s = { s with answers := s.answers ++ [0] } := rfl

/-- BUSY, DONE, ILL, BACC in bits 0 to 3, zeros above (10_state.md R30). -/
theorem getLsbD_statusWord (s : State) (n : Nat) :
    (statusWord s).getLsbD n = [s.busy, s.done, s.ill, s.bacc].getD n false := by
  simp only [statusWord, BitVec.getLsbD_append, BitVec.getLsbD_ofBool, BitVec.getLsbD_zero]
  match n with
  | 0 | 1 | 2 | 3 => simp
  | n + 4 => simp

/-- Settles O1, field by field. -/
theorem resetStateIsAllZero : Obligations.ResetStateIsAllZero :=
  ⟨resetUnit_reg State.reset, fun _ => rfl, rfl, rfl, rfl, rfl, rfl, rfl, rfl⟩

/-- Settles O3: address 0, four bytes wide, is CMD. -/
theorem writeToCmdIsTheIssueStep : Obligations.WriteToCmdIsTheIssueStep := by
  intro s rest value
  rw [step_host, hostAccess_write_cmd]
  rfl

/-- Settles O4, by the bits of the STATUS word. -/
theorem statusReadsItsFourBits : Obligations.StatusReadsItsFourBits := by
  intro s rest
  have hbit (n : Nat) : ((statusWord s).zeroExtend 64).getLsbD n =
      (decide (n < 64) && [s.busy, s.done, s.ill, s.bacc].getD n false) := by
    rw [← getLsbD_statusWord]
    exact BitVec.getLsbD_setWidth ..
  refine ⟨_, (step_host s rest _).trans (congrArg Host.Outcome.next (hostAccess_read_status _)), hbit 0, hbit 1, hbit 2,
    hbit 3, fun n hn => ?_, (step_host s rest _).trans (congrArg Host.Outcome.next (hostAccess_read_cmd _))⟩
  refine (hbit n).trans ?_
  rw [List.getD_eq_default _ _ hn, Bool.and_false]

/-- Write 1 to clear, as a choice (10_state.md R31). -/
theorem and_not_eq_ite (flag w : Bool) : (flag && !w) = if w = true then false else flag := by
  cases w <;> simp

/-- Settles O5: each flag is cleared by its own bit of the low word. -/
theorem statusWriteClearsOnOne : Obligations.StatusWriteClearsOnOne := by
  intro s rest value
  have hbit : ∀ n < 32, (value.truncate 32).getLsbD n = value.getLsbD n := fun n hn => by
    rw [BitVec.truncate, BitVec.getLsbD_setWidth, decide_eq_true hn, Bool.true_and]
  rw [step_host, hostAccess_write_status, clearFlags, hbit 1 (by decide), hbit 2 (by decide), hbit 3 (by decide)]
  simp only [and_not_eq_ite]

/-- Settles O6: the three ways a unit's turn can go, BUSY, idle, and nothing scheduled. -/
theorem unitTurnRunsTheCommandInCmdr : Obligations.UnitTurnRunsTheCommandInCmdr := by
  refine ⟨fun s rest i hbusy hi => ?_, fun s rest hidle => ?_, fun s hsched => ?_⟩
  · refine ⟨_, exec_eq_runMicro i _, ?_⟩
    rw [step_unit, unitTurn, if_pos hbusy]
    exact complete_eq_next hi
  · rw [step_unit, unitTurn, if_neg (by simp [hidle])]
  · have hs : s = { s with schedule := [] } := by rw [← hsched]
    rw [step_unit, ← hs]
    simp [step, takeTurn, hsched]

end Sys2Proof.Machine
end

section
/-! The bytes of the host space: which accesses reach a window or nothing, and an access of an idle unit's window as reads
or writes of single bytes, the byte at the first address the least significant (20_memory.md R53 to R59). -/

namespace Sys2Proof.Machine

/-! ### Runs of bytes -/

/-- The bytes `get a` to `get (a + n - 1)` as one little-endian number (20_memory.md R53). -/
def sumBytes (get : Nat → Byte) (a n : Nat) : Nat := ∑ t ∈ Finset.range n, (get (a + t)).toNat * 2^(8 * t)

@[simp] theorem sumBytes_zero (get : Nat → Byte) (a : Nat) : sumBytes get a 0 = 0 := rfl

theorem sumBytes_succ (get : Nat → Byte) (a n : Nat) :
    sumBytes get a (n + 1) = (get a).toNat + 2^8 * sumBytes get (a + 1) n := by
  have hshift : ∀ t, (get (a + (t + 1))).toNat * 2^(8 * (t + 1)) = 2^8 * ((get (a + 1 + t)).toNat * 2^(8 * t)) := by
    intro t
    rw [show a + (t + 1) = a + 1 + t by omega, Nat.mul_succ, pow_add]
    ring
  rw [sumBytes, Finset.sum_range_succ', Finset.sum_congr rfl fun t _ => hshift t, ← Finset.mul_sum, add_comm]
  simp [sumBytes]

theorem sumBytes_one (get : Nat → Byte) (a : Nat) : sumBytes get a 1 = (get a).toNat := by simp [sumBytes]

theorem sumBytes_congr {get get' : Nat → Byte} {a a' n : Nat} (h : ∀ t < n, get (a + t) = get' (a' + t)) :
    sumBytes get a n = sumBytes get' a' n :=
  Finset.sum_congr rfl fun t ht => by rw [h t (Finset.mem_range.1 ht)]

theorem sumBytes_lt (get : Nat → Byte) (a n : Nat) : sumBytes get a n < 2^(8 * n) := by
  induction n generalizing a with
  | zero => simp
  | succ n ih =>
    have hbyte := (get a).isLt
    have hrest := ih (a + 1)
    rw [sumBytes_succ, Nat.mul_succ, pow_add]
    omega

/-- Put the low `n` bytes of `v` at `a` to `a + n - 1`, one after the other (20_memory.md R54). -/
def putBytes {σ : Type} (put : σ → Nat → Byte → σ) (s : σ) (a n v : Nat) : σ :=
  (List.range n).foldl (fun s t => put s (a + t) (BitVec.ofNat 8 (v / 2^(8 * t)))) s

section
variable {σ : Type} (put : σ → Nat → Byte → σ) (s : σ) (a n v : Nat)

@[simp] theorem putBytes_zero : putBytes put s a 0 v = s := rfl

theorem putBytes_succ :
    putBytes put s a (n + 1) v = putBytes put (put s a (BitVec.ofNat 8 v)) (a + 1) n (v / 2^8) := by
  have hshift : ∀ t, BitVec.ofNat 8 (v / 2^(8 * (t + 1))) = BitVec.ofNat 8 (v / 2^8 / 2^(8 * t)) := fun t => by
    rw [Nat.div_div_eq_div_mul, ← pow_add, Nat.mul_succ, Nat.add_comm]
  simp only [putBytes, List.range_succ_eq_map, List.foldl_cons, List.foldl_map, Nat.succ_eq_add_one, hshift]
  simp [Nat.add_assoc, Nat.add_comm 1]

end

theorem readLE_eq_sumBytes (m : Memory) (a n : Nat) : m.readLE a n = sumBytes m.read a n := by
  induction n generalizing a with
  | zero => rfl
  | succ n ih => rw [Memory.readLE, sumBytes_succ, ih]

theorem windowLE_eq_sumBytes (s : State) (k n : Nat) : s.windowLE k n = sumBytes s.windowByte k n := by
  induction n generalizing k with
  | zero => rfl
  | succ n ih => rw [State.windowLE, sumBytes_succ, ih]

/-- Settles O16, by induction on the number of bytes. -/
theorem memReadIsTheLittleEndianSum : Obligations.MemReadIsTheLittleEndianSum :=
  readLE_eq_sumBytes

/-! ### The address map -/

/-- The `n` bytes from host address `a` lie in the BUF window or in the register window (20_memory.md R56, R59). -/
abbrev InWindow (a n : Nat) : Prop := 0x080 ≤ a ∧ a + n ≤ 0x100 ∨ 0x200 ≤ a ∧ a + n ≤ 0x400

theorem hostTarget_of_inWindow {addr : BitVec 10} {width : HostWidth} (h : InWindow addr.toNat width.bytes) :
    (∃ a, addr.toNat = 0x080 + a ∧ a + width.bytes ≤ 0x080 ∧ hostTarget addr width = .bufWindow a) ∨
    (∃ k, addr.toNat = 0x200 + k ∧ hostTarget addr width = .regWindow k) := by
  obtain ⟨hlo, hhi⟩ | ⟨hlo, hhi⟩ := h
  · refine .inl ⟨addr.toNat - 0x080, by omega, by omega, ?_⟩
    rw [hostTarget, if_neg (by omega), if_neg (by omega), if_pos ⟨hlo, hhi⟩]
  · refine .inr ⟨addr.toNat - 0x200, by omega, ?_⟩
    rw [hostTarget, if_neg (by omega), if_neg (by omega), if_neg (by omega), if_pos ⟨hlo, hhi⟩]

theorem bytes_pos (width : HostWidth) : 0 < width.bytes := by cases width <;> decide

theorem bytes_le_eight (width : HostWidth) : width.bytes ≤ 8 := by cases width <;> decide

/-! ### The bytes of the two windows -/

/-- The byte a window shows at host address `a` (20_memory.md R56). -/
def State.hostByte (s : State) (a : Nat) : Byte :=
  if a < 0x200 then s.buf.read (a - 0x080) else s.windowByte (a - 0x200)

/-- Replace the byte a window shows at host address `a` (20_memory.md R57, R58). -/
def State.setHostByte (s : State) (a : Nat) (b : Byte) : State :=
  if a < 0x200 then { s with buf := s.buf.write (a - 0x080) b } else s.setWindowByte (a - 0x200) b

section
variable (s : State) (b : Byte)

theorem hostByte_buf {a : Nat} (h : a < 0x080) : s.hostByte (0x080 + a) = s.buf.read a := by
  rw [State.hostByte, if_pos (by omega), Nat.add_sub_cancel_left]

theorem hostByte_reg (k : Nat) : s.hostByte (0x200 + k) = s.windowByte k := by
  rw [State.hostByte, if_neg (by omega), Nat.add_sub_cancel_left]

theorem setHostByte_buf {a : Nat} (h : a < 0x080) :
    s.setHostByte (0x080 + a) b = { s with buf := s.buf.write a b } := by
  rw [State.setHostByte, if_pos (by omega), Nat.add_sub_cancel_left]

theorem setHostByte_reg (k : Nat) : s.setHostByte (0x200 + k) b = s.setWindowByte k b := by
  rw [State.setHostByte, if_neg (by omega), Nat.add_sub_cancel_left]

@[simp] theorem setHostByte_busy (a : Nat) : (s.setHostByte a b).busy = s.busy := by
  unfold State.setHostByte
  split <;> rfl

end

theorem putBytes_setHostByte_buf (s : State) (a n v : Nat) (h : a + n ≤ 0x080) :
    putBytes State.setHostByte s (0x080 + a) n v = { s with buf := s.buf.writeLE a n v } := by
  induction n generalizing s a v with
  | zero => rfl
  | succ n ih => rw [putBytes_succ, setHostByte_buf s _ (by omega), Nat.add_assoc, ih _ _ _ (by omega), Memory.writeLE]

theorem putBytes_setHostByte_reg (s : State) (k n v : Nat) :
    putBytes State.setHostByte s (0x200 + k) n v = s.setWindowLE k n v := by
  induction n generalizing s k v with
  | zero => rfl
  | succ n ih => rw [putBytes_succ, setHostByte_reg, Nat.add_assoc, ih, State.setWindowLE]

/-! ### Accesses of an idle unit's windows -/

section
variable {s : State} (hidle : s.busy = false)
include hidle

/-- A read of a window touches nothing while idle (20_memory.md R57, R58). -/
theorem readEffect_of_idle (addr : BitVec 10) (width : HostWidth) : readEffect addr width s = s := by
  unfold readEffect
  cases hostTarget addr width <;> simp [hidle]

variable {addr : BitVec 10} {width : HostWidth} (hwin : InWindow addr.toNat width.bytes)
include hwin

/-- A read of a window is the little-endian number of its bytes (20_memory.md R59). -/
theorem readValue_toNat_of_idle : (readValue addr width s).toNat = sumBytes s.hostByte addr.toNat width.bytes := by
  have hval : readValue addr width s = BitVec.ofNat 64 (sumBytes s.hostByte addr.toNat width.bytes) := by
    obtain ⟨a, haddr, hin, ht⟩ | ⟨k, haddr, ht⟩ := hostTarget_of_inWindow hwin
    · have hbytes : sumBytes s.hostByte addr.toNat width.bytes = s.buf.readLE a width.bytes := by
        rw [readLE_eq_sumBytes, haddr]
        exact sumBytes_congr fun t ht => by rw [Nat.add_assoc, hostByte_buf s (by omega)]
      simp [readValue, ht, hidle, hbytes]
    · have hbytes : sumBytes s.hostByte addr.toNat width.bytes = s.windowLE k width.bytes := by
        rw [windowLE_eq_sumBytes, haddr]
        exact sumBytes_congr fun t _ => by rw [Nat.add_assoc, hostByte_reg]
      simp [readValue, ht, hidle, hbytes]
  have hlt : sumBytes s.hostByte addr.toNat width.bytes < 2^64 :=
    (sumBytes_lt ..).trans_le (Nat.pow_le_pow_right (by decide) (by have := bytes_le_eight width; omega))
  rw [hval, BitVec.toNat_ofNat, Nat.mod_eq_of_lt hlt]

/-- A write to a window puts the bytes of its value, one after the other (20_memory.md R59). -/
theorem writeEffect_of_idle (v : BitVec 64) :
    writeEffect addr width v s = putBytes State.setHostByte s addr.toNat width.bytes v.toNat := by
  obtain ⟨a, haddr, hin, ht⟩ | ⟨k, haddr, ht⟩ := hostTarget_of_inWindow hwin
  · rw [haddr, putBytes_setHostByte_buf s a _ _ hin]
    simp [writeEffect, ht, hidle]
  · rw [haddr, putBytes_setHostByte_reg]
    simp [writeEffect, ht, hidle]

end

section
variable {s : State} (hidle : s.busy = false) {addr : BitVec 10} (hwin : InWindow addr.toNat 1)
include hidle hwin

theorem readValue_byte_of_idle : readValue addr .w1 s = (s.hostByte addr.toNat).zeroExtend 64 := by
  apply BitVec.eq_of_toNat_eq
  have hlt := (s.hostByte addr.toNat).isLt
  rw [readValue_toNat_of_idle hidle hwin, BitVec.zeroExtend_eq_setWidth, BitVec.toNat_setWidth, Nat.mod_eq_of_lt (by omega)]
  exact sumBytes_one ..

theorem writeEffect_byte_of_idle (v : BitVec 64) :
    writeEffect addr .w1 v s = s.setHostByte addr.toNat (v.truncate 8) := by
  rw [writeEffect_of_idle hidle hwin]
  exact (putBytes_succ ..).trans (by simp)

/-- A step that reads a byte of a window while idle (20_memory.md R57, R58). -/
theorem step_read_byte_of_idle (rest : List Turn) :
    step { s with schedule := .host (.read addr .w1) :: rest } =
      .next { s with schedule := rest, answers := s.answers ++ [(s.hostByte addr.toNat).zeroExtend 64] } := by
  have hidle' : ({ s with schedule := rest } : State).busy = false := hidle
  rw [step_host, hostAccess, readEffect_of_idle hidle', readValue_byte_of_idle hidle' hwin]
  rfl

/-- A step that writes a byte of a window while idle (20_memory.md R57, R58). -/
theorem step_write_byte_of_idle (rest : List Turn) (v : BitVec 64) :
    step { s with schedule := .host (.write addr .w1 v) :: rest } =
      .next (({ s with schedule := rest } : State).setHostByte addr.toNat (v.truncate 8)) := by
  rw [step_host, hostAccess, writeEffect_byte_of_idle (s := { s with schedule := rest }) hidle hwin]

end

/-- Settles O17: host address `0x080 + a` shows `BUF[a]`. -/
theorem bufWindowBytes : Obligations.BufWindowBytes := by
  intro s rest a v hidle hwf
  have haddr : (BitVec.ofNat 10 (0x080 + a.val)).toNat = 0x080 + a.val := by
    rw [BitVec.toNat_ofNat, Nat.mod_eq_of_lt (by omega)]
  have hwin : InWindow (BitVec.ofNat 10 (0x080 + a.val)).toNat 1 := by omega
  refine ⟨?_, s.buf.write a.val (v.truncate 8), ?_, Memory.read_write_self _ _ hwf,
    fun b hb => Memory.read_write_of_ne _ _ hb⟩
  · rw [step_read_byte_of_idle hidle hwin, haddr, hostByte_buf s a.isLt]
  · rw [step_write_byte_of_idle hidle hwin, haddr, setHostByte_buf _ _ a.isLt]

/-! ### The bytes of a register -/

/-- The bits of a register with byte `n` replaced (20_memory.md R58). -/
theorem getLsbD_setElemByte (v : Elem) (n : Nat) (b : Byte) {i : Nat} (hi : i < 256) :
    (setElemByte v n b).getLsbD i = if 8 * n ≤ i ∧ i < 8 * n + 8 then b.getLsbD (i - 8 * n) else v.getLsbD i := by
  have hmask : (0xFF : Elem).getLsbD (i - 8 * n) = decide (i - 8 * n < 8) := by
    change (BitVec.ofNat 256 (2^8 - 1)).getLsbD (i - 8 * n) = _
    rw [BitVec.getLsbD_ofNat, Nat.testBit_two_pow_sub_one, decide_eq_true (by omega : i - 8 * n < 256), Bool.true_and]
  simp only [setElemByte, BitVec.getLsbD_or, BitVec.getLsbD_and, BitVec.getLsbD_not, BitVec.getLsbD_shiftLeft,
    BitVec.zeroExtend_eq_setWidth, BitVec.getLsbD_setWidth, hmask, decide_eq_true hi]
  by_cases hlo : 8 * n ≤ i
  · by_cases hhi : i < 8 * n + 8
    · simp [hlo, hhi, show ¬ i < 8 * n by omega, show i - 8 * n < 8 by omega, show i - 8 * n < 256 by omega]
    · simp [hhi, show ¬ i - 8 * n < 8 by omega, BitVec.getLsbD_of_ge b (i - 8 * n) (by omega)]
  · simp [hlo, show i < 8 * n by omega]

theorem elemByte_setElemByte (v : Elem) (n : Fin 32) (b : Byte) : elemByte (setElemByte v n b) n = b := by
  apply BitVec.eq_of_getLsbD_eq
  intro i hi
  rw [elemByte, BitVec.getLsbD_extractLsb', getLsbD_setElemByte v n b (by omega), if_pos (by omega)]
  simp [hi]

section
variable (s : State) (i : RegIdx) (n : Fin 32)

/-- Byte `32·i + n` of the register window is byte `n` of `f[i]` (20_memory.md R56). -/
theorem windowByte_of_reg : s.windowByte (32 * i.val + n.val) = elemByte (s.reg i) n := by
  rw [State.windowByte, show (32 * i.val + n.val) / 32 = i.val by omega, show (32 * i.val + n.val) % 32 = n.val by omega,
    Fin.ofNat_val_eq_self]

theorem setWindowByte_of_reg (b : Byte) :
    s.setWindowByte (32 * i.val + n.val) b = s.setReg i (setElemByte (s.reg i) n b) := by
  rw [State.setWindowByte, show (32 * i.val + n.val) / 32 = i.val by omega,
    show (32 * i.val + n.val) % 32 = n.val by omega, Fin.ofNat_val_eq_self]

end

/-- Settles O18: host address `0x200 + 32·i + n` shows byte `n` of `f[i]`. -/
theorem registerWindowBytes : Obligations.RegisterWindowBytes := by
  intro s rest i n v hidle
  have haddr : (BitVec.ofNat 10 (0x200 + 32 * i.val + n.val)).toNat = 0x200 + (32 * i.val + n.val) := by
    rw [BitVec.toNat_ofNat, Nat.mod_eq_of_lt (by omega), Nat.add_assoc]
  have hwin : InWindow (BitVec.ofNat 10 (0x200 + 32 * i.val + n.val)).toNat 1 := by omega
  refine ⟨?_, ({ s with schedule := rest } : State).setReg i (setElemByte (s.reg i) n (v.truncate 8)), ?_, rfl,
    fun j hj => reg_setReg_of_ne _ _ hj, ?_, fun b hb => ?_⟩
  · rw [step_read_byte_of_idle hidle hwin, haddr, hostByte_reg, windowByte_of_reg, elemByte]
  · rw [step_write_byte_of_idle hidle hwin, haddr, setHostByte_reg, setWindowByte_of_reg]
    rfl
  · rw [reg_setReg_self]
    exact elemByte_setElemByte ..
  · rw [reg_setReg_self]
    by_cases hlt : b < 256
    · rw [getLsbD_setElemByte _ _ _ hlt, if_neg (by omega)]
    · rw [BitVec.getLsbD_of_ge _ _ (by omega), BitVec.getLsbD_of_ge _ _ (by omega)]

/-! ### Wide accesses -/

/-- The host address of byte `t` of an access inside a window does not wrap around. -/
theorem toNat_add_of_inWindow {addr : BitVec 10} {n t : Nat} (hwin : InWindow addr.toNat n) (ht : t < n) :
    (addr + BitVec.ofNat 10 t).toNat = addr.toNat + t := by
  rw [BitVec.toNat_add, BitVec.toNat_ofNat]
  omega

theorem truncate_ushiftRight (v : BitVec 64) (t : Nat) :
    (v >>> (8 * t)).truncate 8 = BitVec.ofNat 8 (v.toNat / 2^(8 * t)) := by
  apply BitVec.eq_of_toNat_eq
  simp [Nat.shiftRight_eq_div_pow]

/-- Settles O19: the wide access and its byte accesses touch the same bytes in the same order. -/
theorem wideAccessIsItsByteAccesses : Obligations.WideAccessIsItsByteAccesses := by
  intro s addr width v hidle hwin
  have haddr : ∀ t < width.bytes, (addr + BitVec.ofNat 10 t).toNat = addr.toNat + t := fun t =>
    toNat_add_of_inWindow hwin
  have hbyte : ∀ t < width.bytes, InWindow (addr + BitVec.ofNat 10 t).toNat 1 := fun t ht => by
    rw [haddr t ht]
    omega
  constructor
  · rw [writeEffect_of_idle hidle hwin, putBytes]
    refine (List.foldl_rel (r := fun u u' => u = u' ∧ u.busy = false) ⟨rfl, hidle⟩ ?_).1
    rintro t ht u _ ⟨rfl, hu⟩
    have ht := List.mem_range.1 ht
    rw [writeEffect_byte_of_idle hu (hbyte t ht), haddr t ht, truncate_ushiftRight]
    exact ⟨rfl, (setHostByte_busy ..).trans hu⟩
  · rw [readValue_toNat_of_idle hidle hwin, sumBytes]
    refine Finset.sum_congr rfl fun t ht => ?_
    have ht := Finset.mem_range.1 ht
    rw [readValue_toNat_of_idle hidle (hbyte t ht), haddr t ht]
    exact congrArg (· * 2^(8 * t)) (sumBytes_one ..).symm

end Sys2Proof.Machine
end

section
/-! Accesses that reach nothing, and accesses of a BUSY unit (20_memory.md R60 to R62; log 9). -/

namespace Sys2Proof.Machine

/-- An access to CMD or STATUS other than as the aligned word, or with all its bytes between the mapped ranges, reaches
nothing (20_memory.md R56, R60). -/
theorem hostTarget_of_unmapped {addr : BitVec 10} {width : HostWidth}
    (h : addr.toNat < 0x008 ∧ ¬(addr.toNat = 0x000 ∧ width = .w4) ∧ ¬(addr.toNat = 0x004 ∧ width = .w4) ∨
      0x008 ≤ addr.toNat ∧ addr.toNat + width.bytes ≤ 0x080 ∨
      0x100 ≤ addr.toNat ∧ addr.toNat + width.bytes ≤ 0x200) :
    hostTarget addr width = .unmapped := by
  have hpos := bytes_pos width
  simp only [← bytes_eq_four_iff] at h
  rw [hostTarget, if_neg (by omega), if_neg (by omega), if_neg (by omega), if_neg (by omega)]

/-- Settles O20: the address map sends such an access to no register and no window. -/
theorem unmappedAccessesDoNothing : Obligations.UnmappedAccessesDoNothing := by
  intro s rest addr width v h
  have ht := hostTarget_of_unmapped h
  constructor
  · rw [step_host]
    simp only [hostAccess, readEffect, readValue, ht]
  · rw [step_host]
    simp only [hostAccess, writeEffect, ht]

section
variable {s : State} (hbusy : s.busy = true) {addr : BitVec 10} {width : HostWidth}
  (hwin : InWindow addr.toNat width.bytes)
include hbusy hwin

/-- A read of a window while BUSY returns 0 and raises BACC (20_memory.md R61). -/
theorem hostAccess_read_of_busy :
    hostAccess (.read addr width) s = { raiseBusyAccess s with answers := s.answers ++ [0] } := by
  obtain ⟨a, -, -, ht⟩ | ⟨k, -, ht⟩ := hostTarget_of_inWindow hwin <;>
    simp [hostAccess, readEffect, readValue, ht, hbusy]

/-- A write to a window while BUSY is dropped and raises BACC (20_memory.md R61). -/
theorem hostAccess_write_of_busy (v : BitVec 64) : hostAccess (.write addr width v) s = raiseBusyAccess s := by
  obtain ⟨a, -, -, ht⟩ | ⟨k, -, ht⟩ := hostTarget_of_inWindow hwin <;>
    simp [hostAccess, writeEffect, ht, hbusy]

end

theorem issue_of_busy (w : Word) {s : State} (hbusy : s.busy = true) : issue w s = raiseBusyAccess s := by
  rw [issue, if_pos hbusy]

/-- Settles O21: both windows, CMD, then STATUS. -/
theorem busyAccessesAreRefused : Obligations.BusyAccessesAreRefused := by
  intro s rest addr width v hbusy
  have hbusy' : ({ s with schedule := rest } : State).busy = true := hbusy
  refine ⟨fun hwin => ⟨?_, ?_⟩, ?_, rfl, rfl, rfl⟩
  · rw [step_host, hostAccess_read_of_busy hbusy' hwin]
    rfl
  · rw [step_host, hostAccess_write_of_busy hbusy' hwin]
    rfl
  · rw [step_host, hostAccess_write_cmd, issue_of_busy _ hbusy']
    rfl

/-- A host access of a BUSY unit commutes with replacing the registers and BUF: it neither looks at them nor touches them
(20_memory.md R61). -/
theorem hostAccess_replace_of_busy {s : State} (hbusy : s.busy = true) (a : HostAccess) (f : Vector Elem 16) (m : Memory) :
    hostAccess a { s with f := f, buf := m } = { hostAccess a s with f := f, buf := m } := by
  cases a with
  | read addr width =>
    simp only [hostAccess, readEffect, readValue]
    cases hostTarget addr width with
    | cmd | status | unmapped => rfl
    | bufWindow offset | regWindow offset => simp [hbusy, raiseBusyAccess]
  | write addr width v =>
    simp only [hostAccess, writeEffect]
    cases hostTarget addr width with
    | cmd => simp [issue_of_busy, hbusy, raiseBusyAccess]
    | status | unmapped => rfl
    | bufWindow offset | regWindow offset => simp [hbusy, raiseBusyAccess]

/-- Settles O22: replacing `f` and BUF by others commutes with the access, and replacing them by themselves says that it
leaves them. -/
theorem busyUnitRevealsNothing : Obligations.BusyUnitRevealsNothing := by
  intro s s' a hbusy hs'
  have hself : hostAccess a s = { hostAccess a s with f := s.f, buf := s.buf } :=
    hostAccess_replace_of_busy hbusy a s.f s.buf
  refine ⟨?_, by rw [hself], by rw [hself]⟩
  rw [hs']
  exact hostAccess_replace_of_busy hbusy a s'.f s'.buf

end Sys2Proof.Machine
end


section
/-! Decoder and encoder are inverse (30_encoding.md R85, R100, R104). Both directions come from `encode_build`: for every word,
the command a row reads from it is encoded as the row's pattern and, outside the row's mask, the word's own bits. -/

namespace Sys2Proof

/-! ### The fields of a word -/

/-- A word is assembled from its five fields (30_encoding.md R81). -/
theorem wordOf_extractLsb' (w : Word) :
    wordOf (w.extractLsb' 24 8) (w.extractLsb' 20 4) (w.extractLsb' 16 4) (w.extractLsb' 12 4) (w.extractLsb' 0 12) = w := by
  apply BitVec.eq_of_toNat_eq
  simp only [wordOf_toNat, extract_toNat]
  omega

theorem regField_ofNat (v : BitVec 4) : regField (Fin.ofNat 16 v.toNat) = v := by
  revert v; decide

@[simp] theorem regField_fieldD (w : Word) : regField (fieldD w) = w.extractLsb' 20 4 := regField_ofNat _

@[simp] theorem regField_fieldA (w : Word) : regField (fieldA w) = w.extractLsb' 16 4 := regField_ofNat _

@[simp] theorem regField_fieldB (w : Word) : regField (fieldB w) = w.extractLsb' 12 4 := regField_ofNat _

theorem pairField_extractLsb' (w : Word) (k : Nat) :
    pairField (Fin.ofNat 8 (w.extractLsb' (k + 1) 3).toNat) = w.extractLsb' k 4 &&& 0xE := by
  have heven : ∀ v : BitVec 4, v &&& 0xE = BitVec.ofNat 4 (2 * (v.toNat / 2)) := by decide
  simp only [heven, pairField, extract_toNat, Fin.ofNat]
  congr 2
  rw [Nat.pow_succ, ← Nat.div_div_eq_div_mul]
  omega

@[simp] theorem pairField_fieldPairD (w : Word) : pairField (fieldPairD w) = w.extractLsb' 20 4 &&& 0xE :=
  pairField_extractLsb' w 20

@[simp] theorem pairField_fieldPairA (w : Word) : pairField (fieldPairA w) = w.extractLsb' 16 4 &&& 0xE :=
  pairField_extractLsb' w 16

@[simp] theorem pairField_fieldPairB (w : Word) : pairField (fieldPairB w) = w.extractLsb' 12 4 &&& 0xE :=
  pairField_extractLsb' w 12

@[simp] theorem slotField_fieldSlot (w : Word) : slotField (fieldSlot w) = w.extractLsb' 0 12 &&& 3 := by
  apply BitVec.eq_of_toNat_eq
  rw [BitVec.toNat_and]
  have hmod : (w.extractLsb' 0 12).toNat &&& (3 : BitVec 12).toNat = (w.extractLsb' 0 12).toNat % 2^2 :=
    Nat.and_two_pow_sub_one_eq_mod _ 2
  rw [hmod, slotField, fieldSlot, BitVec.toNat_ofNat, Fin.val_ofNat, extract_toNat, extract_toNat]
  omega

@[simp] theorem selectorField_fieldSelector (w : Word) : selectorField (fieldSelector w) = w.extractLsb' 0 12 &&& 1 := by
  have hbit : (w.extractLsb' 0 12).getLsbD 0 = w.getLsbD 0 := by simp
  rw [show (1 : BitVec 12) = 1#12 from rfl, BitVec.and_one_eq_setWidth_ofBool_getLsbD, hbit, fieldSelector]
  cases w.getLsbD 0 <;> rfl

/-- The command that a row reads from a word is encoded as the row's pattern with, where the row's mask does not look, the
word's own bits (30_encoding.md R84, R85). -/
theorem encode_build (w : Word) : ∀ r ∈ opcodeTable, encode (r.op.build w) = r.pattern ||| (w &&& ~~~r.mask) := by
  have hnibble (v : BitVec 4) : v &&& 15#4 = v := BitVec.and_allOnes
  have himm (v : BitVec 12) : v &&& 4095#12 = v := BitVec.and_allOnes
  intro r hr
  -- field by field on the right, then row by row
  rw [← wordOf_extractLsb' (r.pattern ||| (w &&& ~~~r.mask))]
  simp only [BitVec.extractLsb'_or, BitVec.extractLsb'_and]
  revert r
  simp only [opcodeTable, opcodeTablePrimitive, opcodeTableMacro, List.cons_append, List.nil_append, List.forall_mem_cons]
  simp [encode, Op.build, fieldImm12, hnibble, himm]

/-- What an accepted word says (30_encoding.md R104): the form of a row, that row's command, FINV's check passed. -/
theorem decode_eq_ok_iff {w : Word} {i : Instr} :
    decode w = .ok i ↔ ∃ r ∈ opcodeTable, w &&& r.mask = r.pattern ∧ r.op.build w = i ∧ i.WellFormed := by
  constructor
  · intro h
    cases hrow : rowFor (fieldOp w) with
    | none => simp [decode, hrow] at h
    | some r =>
      simp only [decode, hrow] at h
      split at h
      · next hw =>
        split at h
        · next hwf =>
          cases h
          exact ⟨r, List.mem_of_find?_eq_some hrow, hw, rfl, hwf⟩
        · cases h
      · split at h <;> cases h
  · rintro ⟨r, hr, hw, rfl, hwf⟩
    exact decode_eq_build hr hw hwf

/-- A word of a row's form is the encoding of the command the row reads from it. -/
theorem encode_build_of_matches {w : Word} {r : Row} (hr : r ∈ opcodeTable) (hw : w &&& r.mask = r.pattern) :
    encode (r.op.build w) = w := by
  rw [encode_build w r hr, ← hw, ← BitVec.and_or_distrib_left, BitVec.or_not_self, BitVec.and_allOnes]

/-- Settles O24: the word fits the row it was decoded by, and such a word is rebuilt from its fields. -/
theorem encodeOfDecodeIsTheWord : Obligations.EncodeOfDecodeIsTheWord := by
  intro w i h
  obtain ⟨r, hr, hw, rfl, hwf⟩ := decode_eq_ok_iff.mp h
  exact ⟨hwf, encode_build_of_matches hr hw⟩

/-- Some row reads a command back from its own encoding. -/
theorem fieldsSurvive : ∀ i : Instr, Laws.FieldsSurvive.Statement i
  | .nop => Laws.FieldsSurvive.nop
  | .fadd d a b => Laws.FieldsSurvive.fadd d a b
  | .fsub d a b => Laws.FieldsSurvive.fsub d a b
  | .fmul d a b => Laws.FieldsSurvive.fmul d a b
  | .fsqr d a => Laws.FieldsSurvive.fsqr d a
  | .fmuls d a => Laws.FieldsSurvive.fmuls d a
  | .fmul2 d a b => Laws.FieldsSurvive.fmul2 d a b
  | .fsqr2 d a => Laws.FieldsSurvive.fsqr2 d a
  | .cswap a b s => Laws.FieldsSurvive.cswap a b s
  | .cswap2 a b s => Laws.FieldsSurvive.cswap2 a b s
  | .fmov d a => Laws.FieldsSurvive.fmov d a
  | .fseti d imm => Laws.FieldsSurvive.fseti d imm
  | .padbl => Laws.FieldsSurvive.padbl
  | .pdbl => Laws.FieldsSurvive.pdbl
  | .finv d a => Laws.FieldsSurvive.finv d a
  | .ladder => Laws.FieldsSurvive.ladder
  | .x25519 => Laws.FieldsSurvive.x25519
  | .fdec d slot => Laws.FieldsSurvive.fdec d slot
  | .fldr d slot => Laws.FieldsSurvive.fldr d slot
  | .fenc slot r => Laws.FieldsSurvive.fenc slot r
  | .fstr slot r => Laws.FieldsSurvive.fstr slot r
  | .wipe => Laws.FieldsSurvive.wipe

/-- A row's pattern has no bit outside the row's mask. -/
theorem pattern_and_mask : ∀ r ∈ opcodeTable, r.pattern &&& r.mask = r.pattern := by decide

/-- The word of a command has the form of the row that reads it back: it is that row's pattern, with free bits only where
the mask does not look. -/
theorem encode_matches {i : Instr} {r : Row} (hr : r ∈ opcodeTable) (hbuild : r.op.build (encode i) = i) :
    encode i &&& r.mask = r.pattern := by
  have henc : encode i = r.pattern ||| (encode i &&& ~~~r.mask) := by
    rw [← encode_build _ r hr, hbuild]
  rw [henc, BitVec.and_or_distrib_right, pattern_and_mask r hr, BitVec.and_assoc, BitVec.not_and_self]
  simp

/-- Settles O23: the row that reads the operands back also fits the encoded word, mask and all. -/
theorem decodeOfEncodeIsTheCommand : Obligations.DecodeOfEncodeIsTheCommand := by
  intro i hwf
  obtain ⟨r, hrow, hbuild⟩ := fieldsSurvive i
  have hr : r ∈ opcodeTable := List.mem_of_find?_eq_some hrow
  exact decode_eq_ok_iff.mpr ⟨r, hr, encode_matches hr hbuild, hbuild, hwf⟩

/-- Settles O25: both sides say that a row fits and FINV's check passes; two rows that fit have the word's opcode. -/
theorem legalWordsAreTheDecodableOnes : Obligations.LegalWordsAreTheDecodableOnes := by
  refine ⟨fun w => ⟨decode_of_legal, ?_⟩, ?_⟩
  · rintro ⟨i, h⟩
    obtain ⟨r, hr, hw, rfl, hwf⟩ := decode_eq_ok_iff.mp h
    exact (legal_iff w).mpr ⟨r, hr, hw, (wellFormed_build_iff w r.op).mp hwf⟩
  · intro w r r' hr hr' hw hw'
    have hrow := rowFor_fieldOp_of_matches hr hw
    rw [rowFor_fieldOp_of_matches hr' hw'] at hrow
    exact (Option.some.inj hrow).symm

end Sys2Proof
end

section
/-! The illegal words by name (30_encoding.md R101, R102): a row's mask taken apart into the opcode, the unused bits and the
bits that force a pair to be even. -/

namespace Sys2Proof

open Claims

/-- The bits of the opcode field (30_encoding.md R81). -/
def opcodeMask : Word := 0xFF000000

/-- Every row's mask: the opcode, the unused bits of its format, the bits that force a pair to be even. -/
theorem mask_eq : ∀ r ∈ opcodeTable, r.mask = opcodeMask ||| (unusedBits (fieldOp r.pattern) ||| r.op.evenBits) := by decide

theorem mask_and_not_evenBits :
    ∀ r ∈ opcodeTable, r.mask &&& ~~~r.op.evenBits = opcodeMask ||| unusedBits (fieldOp r.pattern) := by decide

theorem unusedBits_and_opcodeMask :
    ∀ r ∈ opcodeTable, unusedBits (fieldOp r.pattern) &&& opcodeMask = 0#32 := by decide

theorem evenBits_and_opcodeMask (op : Op) : op.evenBits &&& opcodeMask = 0#32 := by
  cases op <;> rfl

theorem and_opcodeMask (w : Word) : w &&& opcodeMask = wordOf (fieldOp w) 0 0 0 0 := by
  rw [← wordOf_extractLsb' (w &&& opcodeMask)]
  have hop (v : BitVec 8) : v &&& 255#8 = v := BitVec.and_allOnes
  simp [BitVec.extractLsb'_and, opcodeMask, fieldOp, hop]

theorem pattern_eq_wordOf : ∀ r ∈ opcodeTable, r.pattern = wordOf (fieldOp r.pattern) 0 0 0 0 := by decide

/-- With the opcode right, a mask that looks at the bits `u` besides asks exactly that they are 0. -/
theorem and_opcodeMask_or_eq_iff {w u p : Word} (hp : w &&& opcodeMask = p) (hu : u &&& opcodeMask = 0#32) :
    w &&& (opcodeMask ||| u) = p ↔ w &&& u = 0#32 := by
  subst hp
  rw [BitVec.and_or_distrib_left]
  constructor
  · intro h
    calc w &&& u = ((w &&& opcodeMask) ||| (w &&& u)) &&& u := by
          simp [BitVec.and_or_distrib_right, BitVec.and_assoc, BitVec.and_comm opcodeMask, hu]
      _ = 0#32 := by simp [h, BitVec.and_assoc, BitVec.and_comm opcodeMask, hu]
  · intro h
    rw [h, BitVec.or_zero]

/-- The row of an opcode, by name. -/
def opFor (code : BitVec 8) : Option Op := (rowFor code).map Row.op

/-- The opcodes with no row are the reserved ones (30_encoding.md R101 item 1). -/
theorem opFor_eq_none_iff : ∀ code : BitVec 8, opFor code = none ↔ reservedOpcode code.toNat := by
  unfold reservedOpcode
  decide

theorem opFor_eq_fmul2_iff : ∀ code : BitVec 8, opFor code = some .fmul2 ↔ code = 0x06 := by decide

theorem opFor_eq_fsqr2_iff : ∀ code : BitVec 8, opFor code = some .fsqr2 ↔ code = 0x07 := by decide

theorem opFor_eq_cswap2_iff : ∀ code : BitVec 8, opFor code = some .cswap2 ↔ code = 0x09 := by decide

theorem opFor_eq_finv_iff : ∀ code : BitVec 8, opFor code = some .finv ↔ code = 0x12 := by decide

theorem decode_of_opFor_none {w : Word} (h : opFor (fieldOp w) = none) : decode w = .error .reservedOpcode := by
  simp only [opFor, Option.map_eq_none_iff] at h
  simp [decode, h]

/-- The decoder on a word with an opcode of the map, in the terms of R101: each item is a set of bits that must be 0. -/
theorem decode_of_opFor {w : Word} {op : Op} (h : opFor (fieldOp w) = some op) :
    decode w =
      if w &&& unusedBits (fieldOp w) ≠ 0#32 then .error .mustBeZero
      else if w &&& op.evenBits ≠ 0#32 then .error .oddPair
      else if op = .finv ∧ isTemporary (fieldA w) = true then .error .finvTemporary
      else .ok (op.build w) := by
  obtain ⟨r, hrow, rfl⟩ := Option.map_eq_some_iff.mp h
  have hr : r ∈ opcodeTable := List.mem_of_find?_eq_some hrow
  have hop : fieldOp r.pattern = fieldOp w := by simpa using List.find?_some hrow
  have hp : w &&& opcodeMask = r.pattern := by rw [and_opcodeMask, pattern_eq_wordOf r hr, hop]
  have hu : unusedBits (fieldOp w) &&& opcodeMask = 0#32 := hop ▸ unusedBits_and_opcodeMask r hr
  have hunused : w &&& (r.mask &&& ~~~r.op.evenBits) = r.pattern ↔ w &&& unusedBits (fieldOp w) = 0#32 := by
    rw [mask_and_not_evenBits r hr, hop, and_opcodeMask_or_eq_iff hp hu]
  have hmask : w &&& r.mask = r.pattern ↔ w &&& unusedBits (fieldOp w) = 0#32 ∧ w &&& r.op.evenBits = 0#32 := by
    rw [mask_eq r hr, hop, and_opcodeMask_or_eq_iff hp, BitVec.and_or_distrib_left, BitVec.or_eq_zero_iff]
    rw [BitVec.and_or_distrib_right, hu, evenBits_and_opcodeMask, BitVec.or_zero]
  have hwf : (r.op.build w).wellFormed = true ↔ ¬ (r.op = .finv ∧ isTemporary (fieldA w) = true) := by
    simpa using wellFormed_build_iff w r.op
  simp only [decode, hrow, hunused, hmask, hwf]
  by_cases hunused0 : w &&& unusedBits (fieldOp w) = 0#32
  · by_cases heven0 : w &&& r.op.evenBits = 0#32
    · simp only [hunused0, heven0, and_self, if_true, ne_eq, not_true_eq_false, if_false, ite_not]
    · simp [hunused0, heven0]
  · simp [hunused0]

section
variable {w : Word}

theorem decode_eq_reservedOpcode_iff : decode w = .error .reservedOpcode ↔ opFor (fieldOp w) = none := by
  cases hop : opFor (fieldOp w) with
  | none => simp [decode_of_opFor_none hop]
  | some op =>
    simp only [decode_of_opFor hop]
    split_ifs <;> simp

theorem decode_eq_mustBeZero_iff :
    decode w = .error .mustBeZero ↔ opFor (fieldOp w) ≠ none ∧ w &&& unusedBits (fieldOp w) ≠ 0#32 := by
  cases hop : opFor (fieldOp w) with
  | none => simp [decode_of_opFor_none hop]
  | some op =>
    simp only [decode_of_opFor hop]
    split_ifs <;> simp_all

theorem decode_eq_oddPair_iff :
    decode w = .error .oddPair ↔
      w &&& unusedBits (fieldOp w) = 0#32 ∧ ∃ op, opFor (fieldOp w) = some op ∧ w &&& op.evenBits ≠ 0#32 := by
  cases hop : opFor (fieldOp w) with
  | none => simp [decode_of_opFor_none hop]
  | some op =>
    simp only [decode_of_opFor hop]
    split_ifs <;> simp_all

/-- FINV's mask forces no field to be even, so item 3 does not come before item 4. -/
theorem decode_eq_finvTemporary_iff :
    decode w = .error .finvTemporary ↔
      w &&& unusedBits (fieldOp w) = 0#32 ∧ opFor (fieldOp w) = some .finv ∧ isTemporary (fieldA w) = true := by
  have hfinv : Op.finv.evenBits = 0#32 := rfl
  cases hop : opFor (fieldOp w) with
  | none => simp [decode_of_opFor_none hop]
  | some op =>
    simp only [decode_of_opFor hop]
    split_ifs with hunused heven htemp
    · simp [hunused]
    · have : op ≠ .finv := by rintro rfl; simp [hfinv] at heven
      simp [this]
    · simp_all
    · simp_all

end

theorem and_or_ne_zero_iff (w u v : Word) : w &&& (u ||| v) ≠ 0#32 ↔ w &&& u ≠ 0#32 ∨ w &&& v ≠ 0#32 := by
  rw [BitVec.and_or_distrib_left, ne_eq, BitVec.or_eq_zero_iff, not_and_or]

theorem and_twoPow_ne_zero_iff (w : Word) {k : Nat} (hk : k < 32) :
    w &&& BitVec.twoPow 32 k ≠ 0#32 ↔ w.getLsbD k = true := by
  have hne : BitVec.twoPow 32 k ≠ 0#32 := by
    intro h
    simpa [BitVec.getLsbD_twoPow, hk] using congrArg (BitVec.getLsbD · k) h
  rw [BitVec.and_twoPow]
  split_ifs with hbit <;> simp [hbit, hne]

/-- An odd register in a pair field, field by field (30_encoding.md R101 item 3). -/
theorem and_evenBits_ne_zero_iff (w : Word) (op : Op) :
    w &&& op.evenBits ≠ 0#32 ↔
      op = .fmul2 ∧ (w.getLsbD 20 = true ∨ w.getLsbD 16 = true ∨ w.getLsbD 12 = true) ∨
      op = .fsqr2 ∧ (w.getLsbD 20 = true ∨ w.getLsbD 16 = true) ∨
      op = .cswap2 ∧ (w.getLsbD 16 = true ∨ w.getLsbD 12 = true) := by
  rw [← and_twoPow_ne_zero_iff w (k := 20) (by decide), ← and_twoPow_ne_zero_iff w (k := 16) (by decide),
    ← and_twoPow_ne_zero_iff w (k := 12) (by decide)]
  simp only [← and_or_ne_zero_iff]
  cases op with
  | fmul2 | fsqr2 | cswap2 => simp [Op.evenBits, BitVec.twoPow]
  | _ => simp [Op.evenBits]

theorem isTemporary_fieldA_iff (w : Word) :
    isTemporary (fieldA w) = true ↔ 6 ≤ (w.extractLsb' 16 4).toNat ∧ (w.extractLsb' 16 4).toNat ≤ 9 := by
  simp [isTemporary, fieldA]

/-- Settles O26: the decoder's four refusals, with the rows named by their opcodes. -/
theorem illegalWordsByName : Obligations.IllegalWordsByName := by
  intro w
  refine ⟨?_, ?_, ?_, ?_⟩
  · rw [decode_eq_reservedOpcode_iff, opFor_eq_none_iff]
  · rw [decode_eq_mustBeZero_iff, ne_eq (opFor _), opFor_eq_none_iff]; rfl
  · simp only [decode_eq_oddPair_iff, and_evenBits_ne_zero_iff, ← opFor_eq_fmul2_iff, ← opFor_eq_fsqr2_iff,
      ← opFor_eq_cswap2_iff]
    simp [and_or_left, exists_or]
  · rw [decode_eq_finvTemporary_iff, opFor_eq_finv_iff, isTemporary_fieldA_iff]
    rfl

end Sys2Proof
end

section
/-! The encoding function as a number, and the example words (30_encoding.md R85). -/

namespace Sys2Proof

@[simp] theorem regField_toNat (r : RegIdx) : (regField r).toNat = r.val := by
  revert r; decide

@[simp] theorem pairField_toNat (p : PairIdx) : (pairField p).toNat = 2 * p.val := by
  revert p; decide

@[simp] theorem slotField_toNat (s : Slot) : (slotField s).toNat = s.val := by
  revert s; decide

@[simp] theorem selectorField_toNat (s : Bool) : (selectorField s).toNat = s.toNat := by
  revert s; decide

/-- Settles O27: a word's number is the sum of its fields' (`wordOf_toNat`), and each operand's field is its number. -/
theorem encodingFunction : Obligations.EncodingFunction := by
  intro d a b p q r sel imm slot
  simp [encode, wordOf_toNat]

/-- Settles O28: ten closed words, decoded by the model. -/
theorem specExampleWordsDecode : Obligations.SpecExampleWordsDecode := by
  unfold Obligations.SpecExampleWordsDecode
  decide

end Sys2Proof
end

section
/-! The field functions as integers: what a fold keeps and how far it brings a value down, when the corrections of limb 0 do
not wrap, and from these the closed forms of `fadd`, `fsub`, `fmul`, `fmuls` (40_field_arith.md R112 to R118, R129). -/

namespace Sys2Proof.Machine

/-! ### The fold and the corrections of limb 0 -/

theorem fold_eq (x : Nat) : fold x = x % 2^256 + 38 * (x / 2^256) := rfl

/-- A fold takes `2^256 - 38 = 2·P` off for every carry (40_field_arith.md R112, R114). -/
theorem fold_add (x : Nat) : fold x + x / 2^256 * (2^256 - 38) = x := by
  rw [fold_eq]
  omega

theorem fold_eq_self {x : Nat} (h : x < 2^256) : fold x = x := by
  rw [fold_eq, Nat.mod_eq_of_lt h, Nat.div_eq_of_lt h, Nat.mul_zero, Nat.add_zero]

/-- Below `(n + 1)·2^256` there are at most `n` carries to fold in. -/
theorem fold_lt {x n : Nat} (h : x < 2^256 * (n + 1)) : fold x < 2^256 + 38 * n := by
  rw [fold_eq]
  omega

theorem two_P : 2 * Config.P = 2^256 - 38 := by decide

theorem carry_modEq_zero (n : Nat) : n * (2^256 - 38) ≡ 0 [MOD Config.P] := by
  rw [Nat.modEq_zero_iff_dvd, ← two_P]
  exact ⟨n * 2, by ring⟩

/-- A fold preserves the residue modulo P (40_field_arith.md R112). -/
theorem fold_modEq (x : Nat) : fold x ≡ x [MOD Config.P] := by
  calc fold x ≡ fold x + x / 2^256 * (2^256 - 38) [MOD Config.P] := ((carry_modEq_zero _).add_left (fold x)).symm
    _ = x := fold_add x

theorem lo0add_of_no_wrap {v t : Nat} (h : v % 2^64 + t < 2^64) : lo0add v t = v + t := by
  rw [lo0add, Nat.mod_eq_of_lt h]
  omega

theorem lo0sub_of_no_wrap {v t : Nat} (h : t ≤ v % 2^64) : lo0sub v t = v - t := by
  rw [lo0sub]
  omega

/-- How far a value may exceed 2^256 for the last correction to stay inside limb 0. -/
abbrev CarryFitsLimb0 (w : Nat) : Prop := w < 2^256 + (2^64 - 38)

/-- The last correction is a fold whose carry stays inside limb 0 (40_field_arith.md R129 (a), (c), (d)). -/
theorem lo0add_eq_fold {w : Nat} (h : CarryFitsLimb0 w) :
    lo0add (w % 2^256) (Config.C256 * (w / 2^256)) = fold w := by
  refine lo0add_of_no_wrap ?_
  change w % 2^256 % 2^64 + 38 * (w / 2^256) < 2^64
  omega

theorem fold_lt_of_carryFitsLimb0 {w : Nat} (h : CarryFitsLimb0 w) : fold w < 2^256 := by
  rw [fold_eq]
  omega

/-- The last correction, narrowed to a register: a fold that fits its 256 bits. -/
theorem toNat_ofNat_lo0add {w : Nat} (h : CarryFitsLimb0 w) :
    (BitVec.ofNat 256 (lo0add (w % 2^256) (Config.C256 * (w / 2^256)))).toNat = fold w := by
  rw [BitVec.toNat_ofNat, lo0add_eq_fold h, Nat.mod_eq_of_lt (fold_lt_of_carryFitsLimb0 h)]

/-! ### The functions as folds -/

section
variable (a b : Elem)

/-- The sum of two registers has a carry of at most one bit (40_field_arith.md R114). -/
theorem fold_sum_lt : fold (a.toNat + b.toNat) < 2^256 + 38 * 1 := by
  have ha := a.isLt
  have hb := b.isLt
  exact fold_lt (by omega)

theorem fadd_toNat : (fadd a b).toNat = fold (fold (a.toNat + b.toNat)) :=
  toNat_ofNat_lo0add ((fold_sum_lt a b).trans (by decide))

/-- The first fold leaves a carry of up to 38, the second one of one bit (40_field_arith.md R129 (c)). -/
theorem fmul_toNat : (fmul a b).toNat = fold (fold (fold (a.toNat * b.toNat))) := by
  have hprod : a.toNat * b.toNat < 2^256 * (2^256 - 1 + 1) := Nat.mul_lt_mul'' a.isLt b.isLt
  have hv : fold (a.toNat * b.toNat) < 2^256 * (38 + 1) := (fold_lt hprod).trans (by decide)
  exact toNat_ofNat_lo0add ((fold_lt hv).trans (by decide))

/-- The product with 121665 has a carry below 2^17 (40_field_arith.md R129 (d)). -/
theorem fmuls_toNat : (fmuls a).toNat = fold (fold (a.toNat * 121665)) := by
  have hprod : a.toNat * 121665 < 2^256 * (121664 + 1) := Nat.mul_lt_mul_of_pos_right a.isLt (by decide)
  exact toNat_ofNat_lo0add ((fold_lt hprod).trans (by decide))

end

/-- Settles O29: each fold takes 2^256 - 38 off for its carry, and each carry is one bit. -/
theorem faddIsTwoFolds : Obligations.FaddIsTwoFolds := by
  intro a b c1 c2
  have hsum : fold (a.toNat + b.toNat) + c1 * (2^256 - 38) = a.toNat + b.toNat := fold_add _
  have hfold : fold (fold (a.toNat + b.toNat)) + c2 * (2^256 - 38) = fold (a.toNat + b.toNat) := fold_add _
  have hc1 : c1 ≤ 1 := by
    have ha := a.isLt
    have hb := b.isLt
    exact Nat.lt_succ_iff.1 (Nat.div_lt_of_lt_mul (by omega))
  have hc2 : c2 ≤ 1 :=
    Nat.lt_succ_iff.1 (Nat.div_lt_of_lt_mul ((fold_sum_lt a b).trans (by decide)))
  refine ⟨fadd_toNat a b, hc1, hc2, ?_⟩
  rw [fadd_toNat, Nat.add_mul, Nat.add_comm (c1 * _), ← Nat.add_assoc, hfold, hsum]

/-- Settles O31: the last of the three folds is the correction of limb 0. -/
theorem fmulIsThreeFolds : Obligations.FmulIsThreeFolds := fmul_toNat

/-- Settles O32: the model defines `fsqr` as R117 words it; the work is in `fmuls_toNat`. -/
theorem fsqrIsFmulAndFmulsIsTwoFolds : Obligations.FsqrIsFmulAndFmulsIsTwoFolds :=
  fun a => ⟨rfl, fmuls_toNat a⟩

/-! ### Subtraction, by its borrows -/

section
variable {a b : Nat}

theorem fsubNat_of_le (ha : a < 2^256) (h : b ≤ a) : fsubNat a b = a - b := by
  have hd : (a + 2^256 - b) % 2^256 = a - b := by omega
  have he : (a - b + 2^256) % 2^256 = a - b := by omega
  simp only [fsubNat, if_neg (Nat.not_lt.2 h), hd, Nat.mul_zero, Nat.not_lt_zero, if_false, Nat.sub_zero, he]
  exact lo0sub_of_no_wrap (Nat.zero_le _)

/-- One borrow: the difference is at least 38, and the first correction borrows nothing. -/
theorem fsubNat_of_one_borrow (h : a < b) (hd38 : 38 ≤ a + 2^256 - b) :
    fsubNat a b = a + 2^256 - b - 38 := by
  have hd : (a + 2^256 - b) % 2^256 = a + 2^256 - b := by omega
  have he : (a + 2^256 - b + 2^256 - 38) % 2^256 = a + 2^256 - b - 38 := by omega
  simp only [fsubNat, Config.C256, if_pos h, hd, Nat.mul_one, if_neg (Nat.not_lt.2 hd38), Nat.mul_zero, he]
  exact lo0sub_of_no_wrap (Nat.zero_le _)

/-- Two borrows: the first correction wraps to 2^256 - 38 or more, so limb 0 has room for the second one
(40_field_arith.md R129 (b)). -/
theorem fsubNat_of_two_borrows (h : a < b) (hd38 : a + 2^256 - b < 38) :
    fsubNat a b = a + 2^256 - b + 2^256 - 38 - 38 := by
  have hd : (a + 2^256 - b) % 2^256 = a + 2^256 - b := by omega
  have he : (a + 2^256 - b + 2^256 - 38) % 2^256 = a + 2^256 - b + 2^256 - 38 := by omega
  simp only [fsubNat, Config.C256, if_pos h, hd, Nat.mul_one, if_pos hd38, he]
  exact lo0sub_of_no_wrap (by omega)

end

/-- No result of a subtraction needs narrowing: it is an exact difference or a register wrapped by a correction. -/
theorem fsubNat_lt {a : Nat} (ha : a < 2^256) (b : Nat) : fsubNat a b < 2^256 := by
  obtain h | h := Nat.lt_or_ge a b
  · obtain hd38 | hd38 := Nat.lt_or_ge (a + 2^256 - b) 38
    · rw [fsubNat_of_two_borrows h hd38]; omega
    · rw [fsubNat_of_one_borrow h hd38]; omega
  · rw [fsubNat_of_le ha h]; omega

theorem fsub_toNat (a b : Elem) : (fsub a b).toNat = fsubNat a.toNat b.toNat := by
  rw [fsub, BitVec.toNat_ofNat, Nat.mod_eq_of_lt (fsubNat_lt a.isLt _)]

/-- Settles O30: no borrow, one, or two. -/
theorem fsubClosedForm : Obligations.FsubClosedForm := by
  intro a b
  have ha := a.isLt
  have hb := b.isLt
  simp only [fsub_toNat, BitVec.toNat_sub]
  obtain h | h := Nat.lt_or_ge a.toNat b.toNat
  · have hd : (2^256 - b.toNat + a.toNat) % 2^256 = a.toNat + 2^256 - b.toNat := by omega
    obtain hd38 | hd38 := Nat.lt_or_ge (a.toNat + 2^256 - b.toNat) 38
    · simp only [fsubNat_of_two_borrows h hd38, hd, h, hd38, if_true, and_self]
      omega
    · simp only [fsubNat_of_one_borrow h hd38, hd, h, if_true, Nat.not_lt.2 hd38, and_false, if_false]
      omega
  · simp only [fsubNat_of_le ha h, Nat.not_lt.2 h, if_false, Nat.zero_ne_one, false_and]
    omega

end Sys2Proof.Machine
end


section
/-! Congruence modulo P and the laws that hold bit for bit, from the folds and the closed forms (40_field_arith.md R111,
R130). -/

namespace Sys2Proof.Machine

/-! ### Results that need no carry -/

section
variable {a b : Elem}

theorem fadd_toNat_of_lt (h : a.toNat + b.toNat < 2^256) : (fadd a b).toNat = a.toNat + b.toNat := by
  rw [fadd_toNat, fold_eq_self h, fold_eq_self h]

theorem fsub_toNat_of_le (h : b.toNat ≤ a.toNat) : (fsub a b).toNat = a.toNat - b.toNat := by
  rw [fsub_toNat, fsubNat_of_le a.isLt h]

theorem fmul_toNat_of_lt (h : a.toNat * b.toNat < 2^256) : (fmul a b).toNat = a.toNat * b.toNat := by
  rw [fmul_toNat, fold_eq_self h, fold_eq_self h, fold_eq_self h]

end

section
variable (a b : Elem)

theorem fadd_comm : fadd a b = fadd b a := by
  apply BitVec.eq_of_toNat_eq
  rw [fadd_toNat, fadd_toNat, Nat.add_comm]

theorem fmul_comm : fmul a b = fmul b a := by
  apply BitVec.eq_of_toNat_eq
  rw [fmul_toNat, fmul_toNat, Nat.mul_comm]

theorem fadd_zero : fadd a 0 = a := BitVec.eq_of_toNat_eq (fadd_toNat_of_lt a.isLt)

theorem fsub_zero : fsub a 0 = a := BitVec.eq_of_toNat_eq (fsub_toNat_of_le (Nat.zero_le _))

@[simp] theorem fsub_self : fsub a a = 0 :=
  BitVec.eq_of_toNat_eq ((fsub_toNat_of_le (Nat.le_refl _)).trans (Nat.sub_self _))

theorem fmul_zero : fmul a 0 = 0 := BitVec.eq_of_toNat_eq (fmul_toNat_of_lt (by simp))

theorem fmul_one : fmul a 1 = a := by
  have hprod : a.toNat * (1 : Elem).toNat = a.toNat := Nat.mul_one _
  exact BitVec.eq_of_toNat_eq ((fmul_toNat_of_lt (by rw [hprod]; exact a.isLt)).trans hprod)

/-! ### Congruence modulo P -/

theorem fadd_modEq : (fadd a b).toNat ≡ a.toNat + b.toNat [MOD Config.P] := by
  rw [fadd_toNat]
  exact (fold_modEq _).trans (fold_modEq _)

/-- A borrow adds a multiple of P. -/
theorem fsub_modEq : (fsub a b).toNat + b.toNat ≡ a.toNat [MOD Config.P] := by
  rw [fsubClosedForm a b]
  exact (carry_modEq_zero _).add_left a.toNat

theorem fmul_modEq : (fmul a b).toNat ≡ a.toNat * b.toNat [MOD Config.P] := by
  rw [fmul_toNat]
  exact ((fold_modEq _).trans (fold_modEq _)).trans (fold_modEq _)

theorem fsqr_modEq : (fsqr a).toNat ≡ a.toNat^2 [MOD Config.P] := by
  rw [fsqr, Nat.pow_two]
  exact fmul_modEq a a

theorem fmuls_modEq : (fmuls a).toNat ≡ 121665 * a.toNat [MOD Config.P] := by
  rw [fmuls_toNat, Nat.mul_comm 121665]
  exact (fold_modEq _).trans (fold_modEq _)

end

/-- Settles O33: a fold keeps the residue; the largest register value plus 0 is itself, far from reduced. -/
theorem primitivesAreCongruentModP : Obligations.PrimitivesAreCongruentModP := by
  refine ⟨fun a b => ⟨fadd_modEq a b, fsub_modEq a b, fmul_modEq a b, fsqr_modEq a, fmuls_modEq a⟩,
    BitVec.allOnes 256, 0, ?_⟩
  rw [fadd_zero]
  decide

/-- `fsub(0, 1) = 2^256 - 39` (40_field_arith.md R121). -/
theorem fsub_zero_one : fsub 0 1 = BitVec.ofNat 256 (2^256 - 39) := by decide

/-- Settles O34: 0 and 1 show that `fsub` is not commutative, and that it is not 2^256 minus the opposite difference. -/
theorem bitExactLaws : Obligations.BitExactLaws := by
  refine ⟨fun a b => ⟨fadd_comm a b, fmul_comm a b, rfl, fadd_zero a, fsub_zero a, fsub_self a, fmul_zero a, fmul_one a,
    fadd_toNat_of_lt, fsub_toNat_of_le, fmul_toNat_of_lt⟩, ⟨0, 1, ?_⟩, 0, 1, ?_⟩
  · rw [fsub_zero_one, fsub_zero]
    decide
  · rw [fsub_zero_one, fsub_zero]
    decide

end Sys2Proof.Machine
end


section
/-! Commands that write registers only, each with the word that spells it (30_encoding.md R85; 40_field_arith.md R120 to
R128). -/

namespace Sys2Proof.Machine

open Claims

/-- The word of a command's encoding spells the command. -/
theorem spells_of_encode {i : Instr} {op : BitVec 8} {d a b : BitVec 4} {imm : BitVec 12} (hwf : i.WellFormed)
    (h : encode i = wordOf op d a b imm) : Spells op d a b imm i :=
  (congrArg decode h).symm.trans (decodeOfEncodeIsTheCommand i hwf)

/-- A command that stores nothing and leaves T and i alone changes registers only. -/
theorem givesRegisters_of_reg {i : Instr} {s : State} {v : RegIdx → Elem} (hbyte : ∀ a, writesByte i a = false)
    (hseq : writesAny (linesOf i) .seqT = false) (hreg : ∀ r, (runMicro (linesOf i) s).reg r = v r) :
    GivesRegisters i s v :=
  ⟨_, exec_eq_runMicro i s, hreg,
    fun a => runMicro_same_of_not_written (l := .byte a) ((writesAny_linesOf_byte i a).trans (hbyte a)) s,
    runMicro_sameOutside _ s, runMicro_same_of_not_written (l := .seqT) hseq s,
    runMicro_same_of_not_written (l := .seqI) hseq s⟩

/-! ### One destination -/

/-- Settles O35: each command is one register write. -/
theorem threeRegisterCommands : Obligations.ThreeRegisterCommands := fun d a b s =>
  ⟨spells_of_encode rfl rfl, givesRegisters_of_reg (fun _ => rfl) rfl (reg_setReg s d (fadd (s.reg a) (s.reg b))),
    spells_of_encode rfl rfl, givesRegisters_of_reg (fun _ => rfl) rfl (reg_setReg s d (fsub (s.reg a) (s.reg b))),
    spells_of_encode rfl rfl, givesRegisters_of_reg (fun _ => rfl) rfl (reg_setReg s d (fmul (s.reg a) (s.reg b)))⟩

theorem zextImm_eq_ofNat (imm : BitVec 12) : zextImm imm = BitVec.ofNat 256 imm.toNat := (BitVec.ofNat_toNat 256 imm).symm

/-- Settles O36: each command is one register write. -/
theorem twoRegisterAndImmediateCommands : Obligations.TwoRegisterAndImmediateCommands := fun d a imm s =>
  ⟨spells_of_encode rfl rfl, givesRegisters_of_reg (fun _ => rfl) rfl (reg_setReg s d (fsqr (s.reg a))),
    spells_of_encode rfl rfl, givesRegisters_of_reg (fun _ => rfl) rfl (reg_setReg s d (fmuls (s.reg a))),
    spells_of_encode rfl rfl, givesRegisters_of_reg (fun _ => rfl) rfl (reg_setReg s d (s.reg a)),
    spells_of_encode rfl rfl,
    givesRegisters_of_reg (fun _ => rfl) rfl (zextImm_eq_ofNat imm ▸ reg_setReg s d (zextImm imm))⟩

/-! ### A pair of destinations -/

section
variable (p q : PairIdx)

theorem eq_pairEven_iff (r : RegIdx) : r = pairEven p ↔ r.val = 2 * p.val := Fin.ext_iff

theorem eq_pairOdd_iff (r : RegIdx) : r = pairOdd p ↔ r.val = 2 * p.val + 1 := Fin.ext_iff

theorem pairOdd_ne_pairEven : pairOdd p ≠ pairEven q := by
  rw [ne_eq, eq_pairEven_iff]
  change ¬ 2 * p.val + 1 = 2 * q.val
  omega

/-- Two registers written as a pair. -/
theorem reg_setReg_pair (s : State) (u v : Elem) (r : RegIdx) :
    ((s.setReg (pairEven p) u).setReg (pairOdd p) v).reg r =
      if r.val = 2 * p.val then u else if r.val = 2 * p.val + 1 then v else s.reg r := by
  simp only [← eq_pairEven_iff, ← eq_pairOdd_iff, reg_setReg]
  obtain rfl | hne := eq_or_ne r (pairOdd p)
  · rw [if_pos rfl, if_neg (pairOdd_ne_pairEven p p), if_pos rfl]
  · rw [if_neg hne, if_neg hne]

/-- The odd registers are still what they were when the second half runs (40_field_arith.md R125). -/
theorem reg_pairOdd_setReg_pairEven (s : State) (u : Elem) :
    (s.setReg (pairEven p) u).reg (pairOdd q) = s.reg (pairOdd q) :=
  reg_setReg_of_ne s u (pairOdd_ne_pairEven q p)

end

section
variable (d a b : PairIdx) (s : State)

theorem doFmul2_eq :
    doFmul2 d a b s =
      (s.setReg (pairEven d) (fmul (s.reg (pairEven a)) (s.reg (pairEven b)))).setReg (pairOdd d)
        (fmul (s.reg (pairOdd a)) (s.reg (pairOdd b))) := by
  simp only [doFmul2, doFmul, reg_pairOdd_setReg_pairEven]

theorem doFsqr2_eq :
    doFsqr2 d a s =
      (s.setReg (pairEven d) (fsqr (s.reg (pairEven a)))).setReg (pairOdd d) (fsqr (s.reg (pairOdd a))) := by
  simp only [doFsqr2, doFsqr, reg_pairOdd_setReg_pairEven]

end

/-- An odd register in a pair field makes a word illegal (30_encoding.md R101 item 3). -/
theorem legal_of_odd_pair {w : Word} {op : Op} (hop : opFor (fieldOp w) = some op) (hodd : w &&& op.evenBits ≠ 0#32) :
    legal w = false := by
  rw [← Bool.not_eq_true]
  intro hlegal
  obtain ⟨i, hi⟩ := decode_of_legal hlegal
  rw [decode_of_opFor hop, if_pos hodd] at hi
  split_ifs at hi

/-- Settles O37: a pair field holds an even register, so the first half writes no source of the second. -/
theorem pairCommands : Obligations.PairCommands := by
  refine ⟨fun w hop hodd => ?_, fun w hop hodd => ?_, fun d a b s => ?_⟩
  · exact legal_of_odd_pair ((opFor_eq_fmul2_iff _).2 hop) ((and_evenBits_ne_zero_iff w _).2 (.inl ⟨rfl, hodd⟩))
  · exact legal_of_odd_pair ((opFor_eq_fsqr2_iff _).2 hop) ((and_evenBits_ne_zero_iff w _).2 (.inr (.inl ⟨rfl, hodd⟩)))
  · refine ⟨spells_of_encode rfl rfl, spells_of_encode rfl rfl, ?_, rfl, ?_, rfl⟩
    · refine givesRegisters_of_reg (fun _ => rfl) rfl fun r => ?_
      exact (congrArg (State.reg · r) (doFmul2_eq d a b s)).trans (reg_setReg_pair ..)
    · refine givesRegisters_of_reg (fun _ => rfl) rfl fun r => ?_
      exact (congrArg (State.reg · r) (doFsqr2_eq d a s)).trans (reg_setReg_pair ..)

end Sys2Proof.Machine
end


section
/-! The conditional swap (41_cswap.md R142 to R144): the mask form is the exchange, and from that the laws of `cswap` and what
CSWAP and CSWAP2 do to the registers. -/

namespace Sys2Proof.Machine

open Claims

/-! ### The function -/

section
variable (x y : Elem)

/-- With selector 0 the mask is all zeros. -/
@[simp] theorem cswap_false : cswap false x y = (x, y) := by
  simp [cswap]

/-- With selector 1 the mask is all ones. -/
@[simp] theorem cswap_true : cswap true x y = (y, x) := by
  have hmask (t : Elem) : (0 - 1) &&& t = t := BitVec.allOnes_and
  have hx : x ^^^ (x ^^^ y) = y := by rw [← BitVec.xor_assoc, BitVec.xor_self, BitVec.zero_xor]
  have hy : y ^^^ (x ^^^ y) = x := by rw [BitVec.xor_comm x, ← BitVec.xor_assoc, BitVec.xor_self, BitVec.zero_xor]
  simp only [cswap, if_true, hmask, hx, hy]

/-- Two swaps of the same operands are one, with the selectors added (41_cswap.md R144). -/
theorem cswap_cswap (s1 s2 : Bool) : cswap s1 (cswap s2 x y).1 (cswap s2 x y).2 = cswap (s1 ^^ s2) x y := by
  cases s1 <;> cases s2 <;> simp

/-- The swap undoes itself. -/
theorem cswap_cswap_self (s : Bool) : cswap s (cswap s x y).1 (cswap s x y).2 = (x, y) := by
  rw [cswap_cswap, Bool.xor_self, cswap_false]

end

/-- Settles O39: the mask is all zeros or all ones, and two swaps compose to the swap of the xor. -/
theorem swapLaws : Obligations.SwapLaws := fun x y s1 s2 =>
  ⟨cswap_false x y, cswap_true x y, cswap_cswap_self x y s1, cswap_cswap x y s1 s2⟩

/-! ### The commands -/

/-- The registers after CSWAP (41_cswap.md R142), by which of the operands the register is: neither, one, or both. -/
theorem reg_doCswap (a b : RegIdx) (sel : Bool) (s : State) (r : RegIdx) :
    (doCswap a b sel s).reg r =
      if sel = true then (if r = a then s.reg b else if r = b then s.reg a else s.reg r) else s.reg r := by
  obtain rfl | hb := eq_or_ne r b
  · obtain rfl | ha := eq_or_ne r a
    · cases sel <;> simp [doCswap]
    · cases sel <;> simp [doCswap, ha]
  · obtain rfl | ha := eq_or_ne r a
    · cases sel <;> simp [doCswap, hb]
    · cases sel <;> simp [doCswap, ha, hb]

/-- The registers after CSWAP2 (41_cswap.md R143): the swap of the even registers leaves the odd ones as they were, and the
swap of the odd registers leaves the even ones. -/
theorem reg_doCswap2 (a b : PairIdx) (sel : Bool) (s : State) (r : RegIdx) :
    (doCswap2 a b sel s).reg r =
      if sel = true then
        (if r = pairEven a then s.reg (pairEven b) else if r = pairEven b then s.reg (pairEven a)
         else if r = pairOdd a then s.reg (pairOdd b) else if r = pairOdd b then s.reg (pairOdd a)
         else s.reg r)
      else s.reg r := by
  have hodd (p : PairIdx) : (doCswap (pairEven a) (pairEven b) sel s).reg (pairOdd p) = s.reg (pairOdd p) := by
    simp only [reg_doCswap, pairOdd_ne_pairEven, if_false, ite_self]
  rw [doCswap2, reg_doCswap, hodd, hodd]
  cases sel with
  | false => simp [reg_doCswap]
  | true =>
    obtain rfl | hoa := eq_or_ne r (pairOdd a)
    · simp [pairOdd_ne_pairEven]
    obtain rfl | hob := eq_or_ne r (pairOdd b)
    · simp [pairOdd_ne_pairEven]
    · simp [reg_doCswap, hoa, hob]

theorem selBits_eq_selectorField (sel : Bool) : selBits sel = selectorField sel := by
  cases sel <;> rfl

/-- Settles O38: with the selector fixed, CSWAP is two register writes, and CSWAP2 is two CSWAPs on registers apart. -/
theorem swapCommands : Obligations.SwapCommands := by
  refine ⟨fun w hop hodd => ?_, fun a b sel s => ⟨?_, ?_, rfl⟩, fun a b sel s => ⟨?_, ?_, rfl⟩⟩
  · exact legal_of_odd_pair ((opFor_eq_cswap2_iff _).2 hop) ((and_evenBits_ne_zero_iff w _).2 (.inr (.inr ⟨rfl, hodd⟩)))
  · exact spells_of_encode rfl (selBits_eq_selectorField sel ▸ rfl)
  · exact givesRegisters_of_reg (fun _ => rfl) rfl (reg_doCswap a b sel s)
  · exact spells_of_encode rfl (selBits_eq_selectorField sel ▸ rfl)
  · exact givesRegisters_of_reg (fun _ => rfl) rfl (reg_doCswap2 a b sel s)

end Sys2Proof.Machine
end


section
/-! The registers after one arithmetic line, and from these the registers after PADBL and PDBL (42_point_ops.md R151 to
R154). -/

namespace Sys2Proof.Machine

open Claims

/-! ### The registers after one line -/

section
variable (d a b : RegIdx) (p q u : PairIdx) (s : State) (r : RegIdx)

@[simp] theorem reg_run_fadd : ((Micro.fadd d a b).run s).reg r = if r = d then fadd (s.reg a) (s.reg b) else s.reg r :=
  reg_setReg ..

@[simp] theorem reg_run_fsub : ((Micro.fsub d a b).run s).reg r = if r = d then fsub (s.reg a) (s.reg b) else s.reg r :=
  reg_setReg ..

@[simp] theorem reg_run_fmul : ((Micro.fmul d a b).run s).reg r = if r = d then fmul (s.reg a) (s.reg b) else s.reg r :=
  reg_setReg ..

@[simp] theorem reg_run_fmuls : ((Micro.fmuls d a).run s).reg r = if r = d then fmuls (s.reg a) else s.reg r :=
  reg_setReg ..

@[simp] theorem reg_run_fmov : ((Micro.fmov d a).run s).reg r = if r = d then s.reg a else s.reg r :=
  reg_setReg ..

@[simp] theorem reg_run_fseti (imm : BitVec 12) :
    ((Micro.fseti d imm).run s).reg r = if r = d then zextImm imm else s.reg r :=
  reg_setReg ..

@[simp] theorem reg_run_fmul2 :
    ((Micro.fmul2 p q u).run s).reg r =
      if r = pairEven p then fmul (s.reg (pairEven q)) (s.reg (pairEven u))
      else if r = pairOdd p then fmul (s.reg (pairOdd q)) (s.reg (pairOdd u)) else s.reg r := by
  simp only [Micro.run, doFmul2_eq, reg_setReg_pair, eq_pairEven_iff, eq_pairOdd_iff]

@[simp] theorem reg_run_fsqr2 :
    ((Micro.fsqr2 p q).run s).reg r =
      if r = pairEven p then fsqr (s.reg (pairEven q))
      else if r = pairOdd p then fsqr (s.reg (pairOdd q)) else s.reg r := by
  simp only [Micro.run, doFsqr2_eq, reg_setReg_pair, eq_pairEven_iff, eq_pairOdd_iff]

end

/-! ### The registers after the point commands -/

/-- `AA` of 42_point_ops.md R150 for the point in (f2, f3). -/
def State.AA (s : State) : Elem := fsqr (fadd (s.reg 2) (s.reg 3))

/-- `BB` of R150. -/
def State.BB (s : State) : Elem := fsqr (fsub (s.reg 2) (s.reg 3))

/-- `E` of R150. -/
def State.E (s : State) : Elem := fsub s.AA s.BB

/-- `DA` of R150 for the points in (f2, f3) and (f4, f5). -/
def State.DA (s : State) : Elem := fmul (fsub (s.reg 4) (s.reg 5)) (fadd (s.reg 2) (s.reg 3))

/-- `CB` of R150. -/
def State.CB (s : State) : Elem := fmul (fadd (s.reg 4) (s.reg 5)) (fsub (s.reg 2) (s.reg 3))

/-- The table of 42_point_ops.md R152: each register holds what the last line that writes it gives. -/
theorem reg_padblLines (s : State) (r : RegIdx) :
    (runMicro padblLines s).reg r =
      if r = 2 then fmul s.AA s.BB
      else if r = 3 then fmul s.E (fadd (fmuls s.E) s.AA)
      else if r = 4 then fsqr (fadd s.DA s.CB)
      else if r = 5 then fmul (fsqr (fsub s.DA s.CB)) (s.reg 0)
      else if r = 6 then s.BB
      else if r = 7 then fadd (fmuls s.E) s.AA
      else if r = 8 then s.AA
      else if r = 9 then s.E
      else s.reg r := by
  split_ifs <;> simp [*, padblLines, pairEven, pairOdd, State.DA, State.CB, State.AA, State.BB, State.E]

/-- The table of 42_point_ops.md R154. -/
theorem reg_pdblLines (s : State) (r : RegIdx) :
    (runMicro pdblLines s).reg r =
      if r = 2 then fmul s.AA s.BB
      else if r = 3 then fmul s.E (fadd (fmuls s.E) s.AA)
      else if r = 6 then s.BB
      else if r = 7 then fadd (fmuls s.E) s.AA
      else if r = 8 then s.AA
      else if r = 9 then s.E
      else s.reg r := by
  split_ifs <;> simp [*, pdblLines, pairEven, pairOdd, State.AA, State.BB, State.E]

/-- Settles O40: no line of PADBL touches anything but registers, and these are R152's table. -/
theorem padblResult : Obligations.PadblResult := fun s =>
  givesRegisters_of_reg (fun _ => rfl) rfl (reg_padblLines s)

/-- With `Z2 = 0` the two squares are equal. -/
theorem E_of_reg_three {s : State} (hZ : s.reg 3 = 0) : s.E = 0 := by
  rw [State.E, State.AA, State.BB, hZ, fadd_zero, fsub_zero, fsub_self]

/-- Settles O41: R154's table has the entries of R152's for f2 and f3; with `Z2 = 0`, `E` is 0 and so is the product with
it. -/
theorem pdblResult : Obligations.PdblResult := by
  intro s AA BB E
  refine ⟨givesRegisters_of_reg (fun _ => rfl) rfl (reg_pdblLines s),
    ⟨_, _, exec_eq_runMicro .pdbl s, exec_eq_runMicro .padbl s, ?_, ?_⟩,
    fun hZ => ⟨_, exec_eq_runMicro .pdbl s, ?_⟩, fun hX hZ => ⟨_, exec_eq_runMicro .pdbl s, ?_⟩⟩
  · simp [linesOf, reg_pdblLines, reg_padblLines]
  · simp [linesOf, reg_pdblLines, reg_padblLines]
  · have hE : s.E = 0 := E_of_reg_three hZ
    have hZ' : fmul 0 (fadd (fmuls 0) s.AA) = 0 := (fmul_comm ..).trans (fmul_zero _)
    refine ⟨by simp [linesOf, reg_pdblLines, hE], by simpa [linesOf, reg_pdblLines, hE] using hZ', fun hX => ?_⟩
    have hAA : s.AA = 1 := by rw [State.AA, hX, hZ]; decide
    have hBB : s.BB = 1 := by rw [State.BB, hX, hZ]; decide
    simpa [linesOf, reg_pdblLines, hAA, hBB] using fmul_one 1
  · have hAA : s.AA = 100 := by rw [State.AA, hX, hZ]; decide
    have hBB : s.BB = 64 := by rw [State.BB, hX, hZ]; decide
    have hE : s.E = 36 := by rw [State.E, hAA, hBB]; decide
    simp [linesOf, reg_pdblLines, hAA, hBB, hE]
    decide

/-- The commands of a list of commands, one after the other, are their lines, one after the other. -/
theorem execAll_eq_runMicro (is : List Instr) (s : State) : execAll is s = .next (runMicro (is.flatMap linesOf) s) := by
  induction is generalizing s with
  | nil => rfl
  | cons i is ih => rw [execAll, exec_eq_runMicro, List.flatMap_cons, runMicro_append]; exact ih _

/-- Settles O42: the lines of the 15 and of the 8 commands are those of PADBL and PDBL. -/
theorem pointCommandsAreTheirSequences : Obligations.PointCommandsAreTheirSequences :=
  ⟨decodeOfEncodeIsTheCommand .padbl rfl, decodeOfEncodeIsTheCommand .pdbl rfl, fun s =>
    ⟨(execAll_eq_runMicro padblCommands s).symm, (execAll_eq_runMicro pdblCommands s).symm⟩⟩

end Sys2Proof.Machine
end


section
/-! The field functions and the point commands over a commutative ring in which P is 0: a register stands for its residue
(40_field_arith.md R111), and PADBL and PDBL compute the formulas of 42_point_ops.md R150. -/

namespace Sys2Proof.Machine

variable (R : Type) [CommRing R]

/-! ### The formulas -/

section
variable {R}

/-- The doubling formulas of 42_point_ops.md R150. -/
def projDouble (p : R × R) : R × R :=
  ((p.1 + p.2)^2 * (p.1 - p.2)^2,
    ((p.1 + p.2)^2 - (p.1 - p.2)^2) * ((p.1 + p.2)^2 + Config.A24 * ((p.1 + p.2)^2 - (p.1 - p.2)^2)))

/-- The differential addition formulas of 42_point_ops.md R150, for a difference with the affine x-coordinate `x`. -/
def projAdd (x : R) (p q : R × R) : R × R :=
  (((q.1 - q.2) * (p.1 + p.2) + (q.1 + q.2) * (p.1 - p.2))^2,
    x * ((q.1 - q.2) * (p.1 + p.2) - (q.1 + q.2) * (p.1 - p.2))^2)

/-- Exchanging the points exchanges DA and CB: modulo P the sum does not depend on the order. -/
theorem projAdd_comm (x : R) (p q : R × R) : projAdd x p q = projAdd x q p := by
  ext <;> simp only [projAdd] <;> ring

end

/-! ### The field functions -/

section
variable [CharP R Config.P] (a b : Elem)

@[simp] theorem cast_fadd : ((fadd a b).toNat : R) = a.toNat + b.toNat := by
  exact_mod_cast CharP.natCast_eq_natCast' R Config.P (fadd_modEq a b)

@[simp] theorem cast_fsub : ((fsub a b).toNat : R) = a.toNat - b.toNat := by
  rw [eq_sub_iff_add_eq]
  exact_mod_cast CharP.natCast_eq_natCast' R Config.P (fsub_modEq a b)

@[simp] theorem cast_fmul : ((fmul a b).toNat : R) = a.toNat * b.toNat := by
  exact_mod_cast CharP.natCast_eq_natCast' R Config.P (fmul_modEq a b)

@[simp] theorem cast_fsqr : ((fsqr a).toNat : R) = a.toNat^2 := by
  exact_mod_cast CharP.natCast_eq_natCast' R Config.P (fsqr_modEq a)

@[simp] theorem cast_fmuls : ((fmuls a).toNat : R) = Config.A24 * a.toNat := by
  exact_mod_cast CharP.natCast_eq_natCast' R Config.P (fmuls_modEq a)

end

/-! ### The point commands -/

/-- The point a pair of registers holds, in projective coordinates. -/
def State.point (s : State) (p : PairIdx) : R × R := ((s.reg (pairEven p)).toNat, (s.reg (pairOdd p)).toNat)

theorem point_congr {s t : State} {p q : PairIdx} (heven : s.reg (pairEven p) = t.reg (pairEven q))
    (hodd : s.reg (pairOdd p) = t.reg (pairOdd q)) : s.point R p = t.point R q := by
  rw [State.point, State.point, heven, hodd]

variable [CharP R Config.P] (s : State)

theorem point_one_padblLines : (runMicro padblLines s).point R 1 = projDouble (s.point R 1) := by
  simp [State.point, projDouble, reg_padblLines, pairEven, pairOdd, State.AA, State.BB, State.E, add_comm]

theorem point_one_pdblLines : (runMicro pdblLines s).point R 1 = projDouble (s.point R 1) := by
  simp [State.point, projDouble, reg_pdblLines, pairEven, pairOdd, State.AA, State.BB, State.E, add_comm]

theorem point_two_padblLines :
    (runMicro padblLines s).point R 2 = projAdd ((s.reg 0).toNat : R) (s.point R 1) (s.point R 2) := by
  simp [State.point, projAdd, reg_padblLines, pairEven, pairOdd, State.DA, State.CB, mul_comm]

end Sys2Proof.Machine
end


section
/-! PADBL on the points of the curve (42_point_ops.md R155): the formulas of R150, which Laws/Curve.lean has on points, are
what PADBL computes in the field. -/

namespace Sys2Proof.Machine

variable {K : Type} [Field K]

theorem representsX_zero_iff {X Z : K} : RepresentsX X Z (0 : (curve K).Point) ↔ X ≠ 0 ∧ Z = 0 := Iff.rfl

/-- The point with x-coordinate 0 is (0, 0), which is its own negative. -/
theorem add_self_of_representsX_zero [DecidableEq K] {Q : (curve K).Point} (hQ : RepresentsX (0 : K) 1 Q) : Q + Q = 0 := by
  match Q, hQ with
  | .zero, ⟨hX, _⟩ => exact absurd rfl hX
  | .some x y hn, ⟨_, hX⟩ =>
    obtain rfl : x = 0 := by simpa using hX.symm
    have hy : y^2 = 0 := by simpa using curve_equation hn
    exact double_zero hn ((pow_eq_zero_iff two_ne_zero).1 hy)

/-- Every representation of (0, 0) has `X = 0`. -/
theorem fst_eq_zero_of_representsX {Q : (curve K).Point} (hQ : RepresentsX (0 : K) 1 Q) {X Z : K} (h : RepresentsX X Z Q) :
    X = 0 := by
  match Q, hQ, h with
  | .zero, ⟨hX, _⟩, _ => exact absurd rfl hX
  | .some x y hn, ⟨_, hX⟩, ⟨_, hXZ⟩ =>
    obtain rfl : x = 0 := by simpa using hX.symm
    simpa using hXZ

/-- The multiples of an element of order 2 alternate. -/
theorem nsmul_alternates {G : Type} [AddMonoid G] {g : G} (h : g + g = 0) (n : ℕ) :
    n • g = 0 ∧ (n + 1) • g = g ∨ n • g = g ∧ (n + 1) • g = 0 := by
  induction n with
  | zero => exact .inl ⟨zero_nsmul g, by rw [zero_add, one_nsmul]⟩
  | succ n ih =>
    obtain ⟨-, h1⟩ | ⟨-, h1⟩ := ih
    · exact .inr ⟨h1, by rw [succ_nsmul, h1, h]⟩
    · exact .inl ⟨h1, by rw [succ_nsmul, h1, zero_add]⟩

/-- For `X1 = 0` one of nQ and (n+1)Q is the point at infinity and the other one is Q, so the addition formulas give
`(0:0)` (log 15). -/
theorem projAdd_zero_of_representsX [DecidableEq K] {Q : (curve K).Point} {n : ℕ} {p q : K × K}
    (hQ : RepresentsX (0 : K) 1 Q) (hp : RepresentsX p.1 p.2 (n • Q)) (hq : RepresentsX q.1 q.2 ((n + 1) • Q)) :
    projAdd 0 p q = (0, 0) := by
  have hprod : p.1 * q.1 = 0 ∧ p.2 * q.2 = 0 := by
    obtain ⟨hn, hn1⟩ | ⟨hn, hn1⟩ := nsmul_alternates (add_self_of_representsX_zero hQ) n
    · rw [hn, representsX_zero_iff] at hp
      rw [hn1] at hq
      simp [hp.2, fst_eq_zero_of_representsX hQ hq]
    · rw [hn] at hp
      rw [hn1, representsX_zero_iff] at hq
      simp [hq.2, fst_eq_zero_of_representsX hQ hp]
  have hsum : (q.1 - q.2) * (p.1 + p.2) + (q.1 + q.2) * (p.1 - p.2) = 0 := by
    linear_combination 2 * hprod.1 - 2 * hprod.2
  simp [projAdd, hsum]

/-- Settles O43: PADBL computes the formulas of R150 in the field, and these double nQ and add nQ and (n+1)Q, whose
difference is Q. -/
theorem padblDoublesAndAddsOnTheCurve : Obligations.PadblDoublesAndAddsOnTheCurve := by
  intro K _ _ _ Q n s hQ hn hn1
  refine ⟨_, exec_eq_runMicro .padbl s, ?_, fun hX1 => ?_, fun hX1 => ?_⟩
  · have hdouble : RepresentsX (projDouble (s.point K 1)).1 (projDouble (s.point K 1)).2 (n • Q + n • Q) :=
      representsX_double hn
    rwa [← point_one_padblLines, ← add_nsmul, ← two_mul] at hdouble
  · have hdiff : (n + 1) • Q - n • Q = Q := by rw [succ_nsmul, add_sub_cancel_left]
    have hadd : RepresentsX (projAdd (s.elem K 0) (s.point K 1) (s.point K 2)).1
        (projAdd (s.elem K 0) (s.point K 1) (s.point K 2)).2 (n • Q + (n + 1) • Q) :=
      representsX_add hQ hn hn1 hdiff hX1
    rwa [State.elem, ← point_two_padblLines, ← add_nsmul, ← add_assoc, ← two_mul] at hadd
  · have hzero : projAdd (s.elem K 0) (s.point K 1) (s.point K 2) = (0, 0) := by
      rw [hX1] at hQ ⊢
      exact projAdd_zero_of_representsX hQ hn hn1
    rw [State.elem, ← point_two_padblLines] at hzero
    exact Prod.mk.inj hzero

end Sys2Proof.Machine
end


section
/-! LADDER modulo P (43_ladder.md R162 to R165): with the pair of points read without the running swap, each iteration is one
step of the textbook ladder. -/

namespace Sys2Proof.Machine

open Claims

/-! ### The textbook ladder with a swap before and after each step -/

/-- A pair, exchanged if the bit is set. -/
def swapIf {α : Type} (sel : Bool) (p : α × α) : α × α := if sel then p.swap else p

theorem swapIf_swapIf {α : Type} (sel sel' : Bool) (p : α × α) : swapIf sel (swapIf sel' p) = swapIf (sel ^^ sel') p := by
  cases sel <;> cases sel' <;> simp [swapIf]

theorem swapIf_self {α : Type} (sel : Bool) (p : α × α) : swapIf sel (swapIf sel p) = p := by
  rw [swapIf_swapIf, Bool.xor_self]
  rfl

theorem modDouble_eq (p : FP × FP) : modDouble p = projDouble p := by
  simp [modDouble, projDouble, Config.A24]

/-- What PADBL computes of the points in (f2, f3) and (f4, f5), modulo P. -/
def modPadbl (x1 : FP) (p : (FP × FP) × (FP × FP)) : (FP × FP) × (FP × FP) := (projDouble p.1, projAdd x1 p.1 p.2)

/-- A step on the un-swapped pair is PADBL between two swaps by the bit. -/
theorem modStep_eq (x1 : FP) (bit : Bool) (p : (FP × FP) × (FP × FP)) :
    modStep x1 bit p = swapIf bit (modPadbl x1 (swapIf bit p)) := by
  cases bit with
  | false => simp [modStep, swapIf, modPadbl, modDouble_eq, modAdd, projAdd]
  | true =>
    have hadd : modAdd x1 p.1 p.2 = projAdd x1 p.2 p.1 := projAdd_comm x1 p.1 p.2
    simp [modStep, swapIf, modPadbl, modDouble_eq, hadd]

/-! ### The ladder's lines -/

theorem reg_run_ladderStart (s : State) (r : RegIdx) : (Micro.ladderStart.run s).reg r = s.reg r := rfl

/-- The residues of the points in (f2, f3) and (f4, f5). -/
def State.modPoints (s : State) : (FP × FP) × (FP × FP) := (s.point FP 1, s.point FP 2)

theorem modPoints_run_ladderNext (s : State) : (Micro.ladderNext.run s).modPoints = s.modPoints := rfl

theorem modPoints_run_ladderEnd (s : State) : (Micro.ladderEnd.run s).modPoints = s.modPoints := rfl

theorem modPoints_padblLines (s : State) :
    (runMicro padblLines s).modPoints = modPadbl (residue (s.reg 0)) s.modPoints :=
  Prod.ext (point_one_padblLines FP s) (point_two_padblLines FP s)

theorem modPoints_pdblLines (s : State) :
    (runMicro pdblLines s).modPoints = (modDouble s.modPoints.1, s.modPoints.2) := by
  refine Prod.ext ?_ (point_congr FP ?_ ?_)
  · rw [modDouble_eq]
    exact point_one_pdblLines FP s
  · exact reg_pdblLines s _
  · exact reg_pdblLines s _

/-- The swap of the pairs 1 and 2 exchanges the two points (41_cswap.md R143). -/
theorem modPoints_doCswap2 (sel : Bool) (s : State) : (doCswap2 1 2 sel s).modPoints = swapIf sel s.modPoints := by
  cases sel with
  | false => simp [State.modPoints, State.point, swapIf, reg_doCswap2]
  | true => simp [State.modPoints, State.point, swapIf, reg_doCswap2, pairEven, pairOdd]

/-- The state before the iteration for the bit index `254 - n`, for the input `s`. -/
structure LadderInv (s : State) (n : Nat) (t : State) : Prop where
  x1 : t.reg 0 = s.reg 0
  kbit : t.kbit = s.kbit
  index : t.seqI.toNat = 254 - n
  points : t.modPoints = swapIf t.seqT (modLadder (residue (s.reg 0)) s.kbit n)

theorem runMicro_kbit {ms : List Micro} (h : ∀ a, writesAny ms (.byte a) = false) (s : State) :
    (runMicro ms s).kbit = s.kbit := by
  funext i
  have hbyte : (runMicro ms s).buf.read (i / 8) = s.buf.read (i / 8) :=
    runMicro_same_of_not_written (l := .byte (i / 8)) (h _) s
  rw [State.kbit, State.kbit, hbyte]

/-- LADDER starts from p0 = (1, 0) and p1 = (X1, 1), with T = 0 and i = 254 (43_ladder.md R163). -/
theorem ladderInv_ladderInit (s : State) : LadderInv s 0 (runMicro ladderInit s) where
  x1 := runMicro_same_of_not_written (l := .reg 0) (by decide) s
  kbit := runMicro_kbit (fun _ => rfl) s
  index := rfl
  points := by
    change (runMicro ladderInit s).modPoints = ((1, 0), (residue (s.reg 0), 1))
    simp [ladderInit, State.modPoints, State.point, pairEven, pairOdd, residue, zextImm, reg_run_ladderStart]

/-- An iteration takes T to the scalar bit and i to the next lower index (43_ladder.md R164). -/
theorem seq_ladderIteration (t : State) :
    (runMicro ladderIteration t).seqT = t.kbit t.seqI.toNat ∧ (runMicro ladderIteration t).seqI = t.seqI - 1#8 := by
  have hI : (runMicro ([.ladderSwap] ++ padblLines) t).seqI = t.seqI :=
    runMicro_same_of_not_written (l := .seqI) (by decide) t
  have hk : (runMicro ([.ladderSwap] ++ padblLines) t).kbit = t.kbit := runMicro_kbit (fun _ => rfl) t
  rw [ladderIteration, runMicro_append]
  exact ⟨by rw [← hI, ← hk]; rfl, by rw [← hI]; rfl⟩

/-- An iteration is a swap by T xor the scalar bit, then PADBL. -/
theorem modPoints_ladderIteration (t : State) :
    (runMicro ladderIteration t).modPoints =
      modPadbl (residue (t.reg 0)) (swapIf (t.seqT ^^ t.kbit t.seqI.toNat) t.modPoints) := by
  have hx1 : (Micro.ladderSwap.run t).reg 0 = t.reg 0 := run_reg_of_not_written (by decide) t
  calc (runMicro ladderIteration t).modPoints
      = (runMicro padblLines (Micro.ladderSwap.run t)).modPoints := by
        rw [ladderIteration, runMicro_append, runMicro_append, runMicro_cons, runMicro_nil, modPoints_run_ladderNext,
          runMicro_cons, runMicro_nil]
    _ = modPadbl (residue (t.reg 0)) (Micro.ladderSwap.run t).modPoints := by rw [modPoints_padblLines, hx1]
    _ = _ := by rw [Micro.run, doLadderSwap, modPoints_doCswap2]

theorem ladderInv_ladderIteration {s t : State} {n : Nat} (hn : n < 254) (h : LadderInv s n t) :
    LadderInv s (n + 1) (runMicro ladderIteration t) where
  x1 := (runMicro_same_of_not_written (l := .reg 0) (by decide) t).trans h.x1
  kbit := (runMicro_kbit (fun _ => rfl) t).trans h.kbit
  index := by
    have hi := h.index
    rw [(seq_ladderIteration t).2]
    bv_omega
  points := by
    rw [modPoints_ladderIteration, (seq_ladderIteration t).1, h.points, h.x1, h.kbit, h.index, modLadder, modStep_eq,
      swapIf_self, swapIf_swapIf, Bool.xor_right_comm, Bool.xor_self, Bool.false_xor]

theorem ladderInv_ladderLoop {s : State} : ∀ {m n : Nat} {t : State}, n + m ≤ 254 → LadderInv s n t →
    LadderInv s (n + m) (runMicro (ladderLoop m) t)
  | 0, _, _, _, h => h
  | m + 1, n, t, hm, h => by
    rw [ladderLoop, runMicro_append, ← Nat.add_assoc, Nat.add_right_comm]
    exact ladderInv_ladderLoop (by omega) (ladderInv_ladderIteration (by omega) h)

/-- After the loop: a swap by T, then three doublings of the first point (43_ladder.md R165). -/
theorem modPoints_ladderTail (t : State) :
    (runMicro ladderTail t).modPoints =
      (modDouble (modDouble (modDouble (swapIf t.seqT t.modPoints).1)), (swapIf t.seqT t.modPoints).2) := by
  rw [ladderTail, runMicro_append, runMicro_cons, runMicro_nil, modPoints_run_ladderEnd, runMicro_append, runMicro_append,
    runMicro_append, modPoints_pdblLines, modPoints_pdblLines, modPoints_pdblLines, runMicro_cons, runMicro_nil, Micro.run,
    doLadderUnswap, modPoints_doCswap2]

/-- Settles O47: each iteration is a step of the textbook ladder on the pair read without the running swap; the last swap
takes that swap back, and the three doublings leave p1. -/
theorem ladderRefinesTheLadderModP : Obligations.LadderRefinesTheLadderModP := by
  intro s
  refine ⟨_, exec_eq_runMicro .ladder s, ?_⟩
  have hloop := ladderInv_ladderLoop (m := Config.NSTEP) (by decide) (ladderInv_ladderInit s)
  have htail := modPoints_ladderTail (runMicro (ladderLoop Config.NSTEP) (runMicro ladderInit s))
  rw [hloop.points, swapIf_self, ← runMicro_append, ← runMicro_append] at htail
  exact Prod.mk.inj htail

end Sys2Proof.Machine
end


section
/-! The operation traces of the macro commands and their counts (42_point_ops.md R157; 43_ladder.md R169; 44_inversion.md
R186; 45_codec_toplevel.md R204). -/

namespace Sys2Proof.Machine

open Claims

/-! ### The traces -/

theorem flatMap_trace_sqn (t x : RegIdx) (n : Nat) :
    (sqn t x (n + 1)).flatMap Micro.trace = List.replicate (n + 1) .fsqr := by
  rw [sqn, List.flatMap_cons, List.flatMap_replicate, Nat.add_sub_cancel]
  exact congrArg (TraceOp.fsqr :: ·) List.flatten_replicate_singleton

/-- The trace of 44_inversion.md R186 in the runs of the chain: each SQN gives a run of `fsqr`, whatever its registers. -/
theorem trace_finv (d a : RegIdx) : trace (.finv d a) = finvTrace := by
  have hfsqr : List.replicate 3 TraceOp.fsqr = .fsqr :: List.replicate 2 .fsqr := rfl
  have hfmul : List.replicate 2 TraceOp.fmul = [.fmul, .fmul] := rfl
  simp only [trace, linesOf, finvLines, List.flatten_cons, List.flatten_nil, List.flatMap_append, flatMap_trace_sqn]
  simp [Micro.trace, finvTrace, hfsqr, hfmul, -List.reduceReplicate]

/-- Every iteration has the same entries, whatever the scalar is. -/
theorem flatMap_trace_ladderLoop (n : Nat) :
    (ladderLoop n).flatMap Micro.trace = (List.replicate n (.cswap2 :: padblTrace)).flatten := by
  induction n with
  | zero => rfl
  | succ n ih => rw [ladderLoop, List.flatMap_append, ih, List.replicate_succ, List.flatten_cons]; rfl

theorem trace_ladder : trace .ladder = ladderTrace := by
  rw [trace, linesOf, ladderLines, List.flatMap_append, List.flatMap_append, flatMap_trace_ladderLoop, List.append_assoc]
  rfl

theorem trace_x25519 : trace .x25519 = x25519Trace := by
  have hladder : ladderLines.flatMap Micro.trace = ladderTrace := trace_ladder
  have hfinv : (finvLines 1 3).flatMap Micro.trace = finvTrace := trace_finv 1 3
  rw [trace, linesOf, x25519Lines, encodePointLines]
  simp only [List.flatMap_append, hladder, hfinv, x25519Trace, List.flatten_cons, List.append_assoc]
  rfl

/-! ### The counts -/

theorem length_finvTrace : finvTrace.length = 265 := by
  simp [finvTrace, -List.reduceReplicate]

theorem count_fsqr_finvTrace : finvTrace.count .fsqr = 254 := by
  simp [finvTrace, -List.reduceReplicate, List.count_replicate]

theorem count_fmul_finvTrace : finvTrace.count .fmul = 11 := by
  simp [finvTrace, -List.reduceReplicate, List.count_replicate]

/-- LADDER's entries by kind: those of the initial state, of 252 iterations, of the last swap and of three doublings. -/
theorem count_ladderTrace (op : TraceOp) :
    ladderTrace.count op =
      [TraceOp.fseti, .fseti, .fmov, .fseti].count op + 252 * (.cswap2 :: padblTrace).count op +
        [TraceOp.cswap2].count op + 3 * pdblTrace.count op := by
  simp only [ladderTrace, List.flatten_cons, List.flatten_nil, List.count_append, List.count_nil, List.count_flatten,
    List.map_replicate, List.sum_replicate, smul_eq_mul]
  ring

/-- LADDER's 5075 entries: 4, 252 times 20, 1, and 3 times 10 (43_ladder.md R169). -/
theorem length_ladderTrace : ladderTrace.length = 5075 := by
  simp only [ladderTrace, List.flatten_cons, List.flatten_nil, List.length_append, List.length_flatten,
    List.map_replicate, List.sum_replicate]
  rfl

theorem length_x25519Trace : x25519Trace.length = 5353 := by
  simp only [x25519Trace, List.flatten_cons, List.flatten_nil, List.length_append, length_ladderTrace, length_finvTrace]
  rfl

/-- Settles O48: the lines of a macro command do not depend on the state, and their operands do not enter its trace; the
counts of LADDER and X25519 come from those of their parts. -/
theorem macroTraces : Obligations.MacroTraces := by
  refine ⟨rfl, rfl, rfl, rfl, rfl, rfl, rfl, rfl, rfl, rfl, rfl, rfl, rfl, rfl, rfl, rfl, trace_finv, length_finvTrace,
    count_fsqr_finvTrace, count_fmul_finvTrace, trace_ladder, length_ladderTrace, ?_⟩
  simp only [count_ladderTrace]
  exact ⟨rfl, rfl, rfl, rfl, rfl, rfl, rfl, rfl, trace_x25519, length_x25519Trace⟩

end Sys2Proof.Machine
end


section
/-! LADDER as the commands of a host that works the selectors out itself (43_ladder.md R162 to R165; 60_exceptions.md R222).
These commands work on registers alone, so the selectors are all that LADDER takes from BUF: the scalar bits 3 to 254 (R167),
and with these bits all zero no command swaps (R170). -/

namespace Sys2Proof.Machine

open Claims

/-! ### Lines that work on registers alone -/

/-- The lines that touch neither BUF nor the sequencer registers. -/
def Micro.registersOnly : Micro → Bool
  | .fdec _ _ | .fldr _ _ | .fenc _ _ | .fstr _ _ | .wipe => false
  | .ladderStart | .ladderSwap | .ladderNext | .ladderUnswap | .ladderEnd => false
  | .fadd _ _ _ | .fsub _ _ _ | .fmul _ _ _ | .fsqr _ _ | .fmuls _ _ | .fmul2 _ _ _ | .fsqr2 _ _ | .cswap _ _ _
  | .cswap2 _ _ _ | .fmov _ _ | .fseti _ _ => true

/-- `s` with another register file and other sequencer registers: what LADDER makes of its input, line by line. -/
def State.inLadder (s : State) (f : Vector Elem 16) (T : Bool) (i : BitVec 8) : State :=
  { s with f := f, seqT := T, seqI := i }

section
variable (s : State) (f : Vector Elem 16) (T : Bool) (i : BitVec 8)

theorem inLadder_self : s.inLadder s.f s.seqT s.seqI = s := rfl

theorem reg_inLadder (t : State) (r : RegIdx) : (s.inLadder t.f T i).reg r = t.reg r := rfl

theorem run_ladderStart_inLadder : Micro.ladderStart.run (s.inLadder f T i) = s.inLadder f false 254#8 := rfl

theorem run_ladderSwap_inLadder :
    Micro.ladderSwap.run (s.inLadder f T i) = (Micro.cswap2 1 2 (T ^^ s.kbit i.toNat)).run (s.inLadder f T i) := rfl

theorem run_ladderNext_inLadder :
    Micro.ladderNext.run (s.inLadder f T i) = s.inLadder f (s.kbit i.toNat) (i - 1#8) := rfl

theorem run_ladderUnswap_inLadder :
    Micro.ladderUnswap.run (s.inLadder f T i) = (Micro.cswap2 1 2 T).run (s.inLadder f T i) := rfl

theorem run_ladderEnd_inLadder : Micro.ladderEnd.run (s.inLadder f T i) = s.inLadder f false 0#8 := rfl

end

/-- Such a line works on the register file as in every other state with this file. -/
theorem run_inLadder {m : Micro} (h : m.registersOnly = true) (s t : State) (T : Bool) (i : BitVec 8) :
    m.run (s.inLadder t.f T i) = s.inLadder (m.run t).f T i := by
  cases m with
  | fdec | fldr | fenc | fstr | wipe | ladderStart | ladderSwap | ladderNext | ladderUnswap | ladderEnd => cases h
  | _ => rfl

theorem runMicro_inLadder : ∀ {ms : List Micro}, ms.all Micro.registersOnly = true → ∀ (s t : State) (T : Bool)
    (i : BitVec 8), runMicro ms (s.inLadder t.f T i) = s.inLadder (runMicro ms t).f T i
  | [], _, _, _, _, _ => rfl
  | m :: ms, h, s, t, T, i => by
    obtain ⟨hm, hms⟩ := Bool.and_eq_true_iff.1 h
    rw [runMicro_cons, runMicro_cons, run_inLadder hm]
    exact runMicro_inLadder hms s (m.run t) T i

section
variable (s t : State) (T : Bool) (i : BitVec 8)

theorem run_cswap2_inLadder (a b : PairIdx) (sel : Bool) :
    (Micro.cswap2 a b sel).run (s.inLadder t.f T i) = s.inLadder ((Micro.cswap2 a b sel).run t).f T i :=
  run_inLadder rfl s t T i

theorem runMicro_padblLines_inLadder :
    runMicro padblLines (s.inLadder t.f T i) = s.inLadder (runMicro padblLines t).f T i :=
  runMicro_inLadder rfl s t T i

theorem runMicro_pdblLines_inLadder :
    runMicro pdblLines (s.inLadder t.f T i) = s.inLadder (runMicro pdblLines t).f T i :=
  runMicro_inLadder rfl s t T i

end

/-! ### The host's commands, as lines -/

/-- T before the iteration for bit index `i`: the scalar bit above, and 0 for the topmost index (43_ladder.md R162, R164). -/
def bitAbove (k : Nat → Bool) (i : Nat) : Bool := i < 254 && k (i + 1)

/-- The host's lines for p0 = (1, 0) and p1 = (X1, 1). -/
def hostInit : List Micro := [.fseti 2 1, .fseti 3 0, .fmov 4 0, .fseti 5 1]

theorem ladderInit_eq_append : ladderInit = hostInit ++ [.ladderStart] := rfl

/-- The host's lines for bit index `i`, the selector in the word. -/
def hostIteration (k : Nat → Bool) (i : Nat) : List Micro := .cswap2 1 2 (bitAbove k i ^^ k i) :: padblLines

/-- The host's lines for the `n` bit indices from 254 down. -/
def hostLoop (k : Nat → Bool) (n : Nat) : List Micro := (List.range n).flatMap fun m => hostIteration k (254 - m)

/-- The host's lines after the loop, for the last bit. -/
def hostTail (bit : Bool) : List Micro := .cswap2 1 2 bit :: (pdblLines ++ pdblLines ++ pdblLines)

theorem flatMap_linesOf_iterationCommands (k : Nat → Bool) (i : Nat) :
    (iterationCommands k i).flatMap linesOf = hostIteration k i := rfl

theorem flatMap_linesOf_ladderCommands (k : Nat → Bool) :
    (ladderCommands k).flatMap linesOf = hostInit ++ hostLoop k 252 ++ hostTail (k 3) := by
  have hloop : (((List.range 252).map fun n => iterationCommands k (254 - n)).flatten).flatMap linesOf = hostLoop k 252 := by
    simp only [← List.flatMap_def, List.flatMap_assoc, flatMap_linesOf_iterationCommands, hostLoop]
  rw [ladderCommands, List.flatten_cons, List.flatMap_append, List.flatten_cons, List.flatMap_append, hloop,
    List.append_assoc]
  rfl

theorem hostLoop_succ (k : Nat → Bool) (n : Nat) : hostLoop k (n + 1) = hostLoop k n ++ hostIteration k (254 - n) := by
  simp [hostLoop, List.range_succ]

theorem registersOnly_hostLoop (k : Nat → Bool) (n : Nat) : (hostLoop k n).all Micro.registersOnly = true := by
  rw [hostLoop, List.all_flatMap]
  exact List.all_eq_true.2 fun _ _ => rfl

theorem registersOnly_ladderCommands (k : Nat → Bool) :
    ((ladderCommands k).flatMap linesOf).all Micro.registersOnly = true := by
  rw [flatMap_linesOf_ladderCommands, List.all_append, List.all_append, registersOnly_hostLoop]
  rfl

/-! ### LADDER runs the host's lines -/

/-- An iteration is the host's swap by `T xor kbit(i)` and PADBL, then T and i are set (43_ladder.md R164). -/
theorem runMicro_ladderIteration_inLadder (s t : State) (T : Bool) (i : BitVec 8) :
    runMicro ladderIteration (s.inLadder t.f T i) =
      s.inLadder (runMicro (.cswap2 1 2 (T ^^ s.kbit i.toNat) :: padblLines) t).f (s.kbit i.toNat) (i - 1#8) := by
  simp only [ladderIteration, runMicro_append, runMicro_cons, runMicro_nil, run_ladderSwap_inLadder, run_cswap2_inLadder,
    runMicro_padblLines_inLadder, run_ladderNext_inLadder]

/-- The loop, with one iteration more at its end. -/
theorem ladderLoop_succ_eq_append (n : Nat) : ladderLoop (n + 1) = ladderLoop n ++ ladderIteration := by
  induction n with
  | zero => rfl
  | succ n ih => rw [ladderLoop, ih, ← List.append_assoc, ← ladderLoop, ih]

/-- After `n` iterations the registers are the host's, T is the bit above the next index, and i is this index. -/
theorem runMicro_ladderLoop_inLadder (s t : State) : ∀ {n : Nat}, n ≤ 254 →
    runMicro (ladderLoop n) (s.inLadder t.f false 254#8) =
      s.inLadder (runMicro (hostLoop s.kbit n) t).f (bitAbove s.kbit (254 - n)) (BitVec.ofNat 8 (254 - n))
  | 0, _ => rfl
  | n + 1, hn => by
    have hindex : (BitVec.ofNat 8 (254 - n)).toNat = 254 - n := Nat.mod_eq_of_lt (by omega)
    have hnext : BitVec.ofNat 8 (254 - n) - 1#8 = BitVec.ofNat 8 (254 - (n + 1)) := by bv_omega
    have hbit : s.kbit (254 - n) = bitAbove s.kbit (254 - (n + 1)) := by
      rw [bitAbove, decide_eq_true (by omega), Bool.true_and, show 254 - (n + 1) + 1 = 254 - n by omega]
    rw [ladderLoop_succ_eq_append, runMicro_append, runMicro_ladderLoop_inLadder s t (by omega),
      runMicro_ladderIteration_inLadder, hindex, hnext, ← hbit, hostLoop_succ, runMicro_append,
      hostIteration]

/-- After the loop: the host's swap by T and three doublings, then T and i are at rest (43_ladder.md R165, R166). -/
theorem runMicro_ladderTail_inLadder (s t : State) (T : Bool) (i : BitVec 8) :
    runMicro ladderTail (s.inLadder t.f T i) = s.inLadder (runMicro (hostTail T) t).f false 0#8 := by
  simp only [ladderTail, hostTail, runMicro_append, runMicro_cons, runMicro_nil, run_ladderUnswap_inLadder,
    run_cswap2_inLadder, runMicro_pdblLines_inLadder, run_ladderEnd_inLadder]

/-- LADDER leaves the registers that the host's commands give in any state with the same register file, T and i at rest, and
everything else as it was. -/
theorem exec_ladder_eq (s : State) {t : State} (hf : t.f = s.f) :
    exec .ladder s = .next (s.inLadder (runMicro ((ladderCommands s.kbit).flatMap linesOf) t).f false 0#8) := by
  have hinit : runMicro ladderInit s = s.inLadder (runMicro hostInit t).f false 254#8 := by
    have hregs := runMicro_inLadder (ms := hostInit) rfl s t s.seqT s.seqI
    rw [hf, inLadder_self] at hregs
    rw [ladderInit_eq_append, runMicro_append, hregs, runMicro_cons, runMicro_nil, run_ladderStart_inLadder]
  have hsteps : Config.NSTEP = 252 := rfl
  have hlast : bitAbove s.kbit (254 - 252) = s.kbit 3 := rfl
  rw [exec_eq_runMicro, linesOf, ladderLines, hsteps, runMicro_append, runMicro_append, hinit,
    runMicro_ladderLoop_inLadder s _ (by decide), runMicro_ladderTail_inLadder, hlast, flatMap_linesOf_ladderCommands,
    runMicro_append, runMicro_append]

/-- Settles O44: the host's commands change the register file alone, and T and i are at rest before and after LADDER. -/
theorem ladderIsItsCommands : Obligations.LadderIsItsCommands := by
  refine ⟨decodeOfEncodeIsTheCommand .ladder rfl, fun s hT hI => ?_⟩
  have hhost := runMicro_inLadder (registersOnly_ladderCommands s.kbit) s s s.seqT s.seqI
  rw [inLadder_self, hT, hI] at hhost
  rw [exec_ladder_eq s rfl, execAll_eq_runMicro]
  exact congrArg _ hhost.symm

/-! ### The scalar bits that LADDER reads -/

/-- No selector depends on the bits 0, 1, 2 and 255. -/
theorem ladderCommands_congr {k k' : Nat → Bool} (h : ∀ i, 3 ≤ i → i ≤ 254 → k i = k' i) :
    ladderCommands k = ladderCommands k' := by
  have hiteration : ∀ n ∈ List.range 252, iterationCommands k (254 - n) = iterationCommands k' (254 - n) := by
    intro n hn
    rw [List.mem_range] at hn
    have habove : bitAbove k (254 - n) = bitAbove k' (254 - n) := by
      cases n with
      | zero => rfl
      | succ n => rw [bitAbove, bitAbove, h _ (by omega) (by omega)]
    rw [iterationCommands, iterationCommands, h (254 - n) (by omega) (by omega), ← bitAbove, ← bitAbove, habove]
  rw [ladderCommands, ladderCommands, List.map_congr_left hiteration, h 3 (by omega) (by omega)]

theorem Covered.flatMap {α : Type} {known : Loc → Bool} {g : α → List Micro} (h : ∀ x, Covered known (g x)) :
    ∀ xs : List α, Covered known (xs.flatMap g)
  | [] => trivial
  | x :: xs => (h x).append_of_covered (Covered.flatMap h xs)

/-- The host's lines after the initial state read the points and nothing else. -/
theorem covered_hostLoop_hostTail {known : Loc → Bool} (h : ∀ r, readsReg .padbl r = true → known (.reg r) = true)
    (k : Nat → Bool) (n : Nat) (bit : Bool) : Covered known (hostLoop k n ++ hostTail bit) := by
  have hpairs : ∀ r, readsReg (.cswap2 1 2 false) r = true → readsReg .padbl r = true := by decide
  have hdouble : ∀ r, readsReg .pdbl r = true → readsReg .padbl r = true := by decide
  have hswap (sel : Bool) : Covered known [.cswap2 1 2 sel] :=
    (covered_singleton (m := .cswap2 1 2 sel) rfl rfl).of_columnReads (fun r hr => h r (hpairs r hr)) nofun
  have hpadbl : Covered known padblLines := covered_padblLines.of_columnReads h nofun
  have hpdbl : Covered known pdblLines := covered_pdblLines.of_columnReads (fun r hr => h r (hdouble r hr)) nofun
  exact (Covered.flatMap (fun _ => (hswap _).append_of_covered hpadbl) _).append_of_covered
    ((hswap bit).append_of_covered ((hpdbl.append_of_covered hpdbl).append_of_covered hpdbl))

/-- The host's lines read f0 and what they wrote themselves. -/
theorem covered_ladderCommands (k : Nat → Bool) : Covered (columnReads .ladder) ((ladderCommands k).flatMap linesOf) := by
  have hinit : Covered (columnReads .ladder) hostInit := by
    simp [hostInit, Micro.command, Micro.readsT, Micro.readsKbit, readsReg, readsByte]
  rw [flatMap_linesOf_ladderCommands, List.append_assoc]
  exact hinit.append (covered_hostLoop_hostTail (by decide) k 252 (k 3))

theorem writesAny_ladderCommands {r : RegIdx} (h2 : 2 ≤ r.val) (h9 : r.val ≤ 9) (k : Nat → Bool) :
    writesAny ((ladderCommands k).flatMap linesOf) (.reg r) = true := by
  have hends : ∀ r : RegIdx, 2 ≤ r.val → r.val ≤ 9 →
      writesAny hostInit (.reg r) = true ∨ writesAny pdblLines (.reg r) = true := by decide
  rw [flatMap_linesOf_ladderCommands]
  obtain h | h := hends r h2 h9 <;> simp [hostTail, h]

/-- Settles O45: the same commands on two register files with the same f0. -/
theorem ladderDependsOnX1AndBits3To254 : Obligations.LadderDependsOnX1AndBits3To254 := by
  intro s s' hX1 hbits
  refine ⟨_, _, exec_ladder_eq s (t := State.reset.inLadder s.f false 0) rfl,
    exec_ladder_eq s' (t := State.reset.inLadder s'.f false 0) rfl, fun r h2 h9 => ?_⟩
  rw [ladderCommands_congr hbits, reg_inLadder, reg_inLadder]
  have hknown : ∀ l, columnReads .ladder l = true →
      l.Same (State.reset.inLadder s.f false 0) (State.reset.inLadder s'.f false 0) := by
    refine forall_columnReads_iff.2 ⟨fun r hr => ?_, fun _ _ => rfl⟩
    obtain rfl : r = 0 := by simpa [readsReg] using hr
    exact hX1
  exact runMicro_same_of_covered (covered_ladderCommands s'.kbit) Memory.wf_nil Memory.wf_nil hknown (.reg r)
    (by simp [writesAny_ladderCommands h2 h9])

/-! ### The scalar bits 3 to 254 all zero -/

/-- The point p0 = (1, 0) in (f2, f3), with which the ladder starts (43_ladder.md R163). -/
def State.IsOneZero (s : State) : Prop := s.reg 2 = 1 ∧ s.reg 3 = 0

/-- The double of (1, 0) is (1, 0), bit for bit. -/
theorem double_of_isOneZero {s : State} (h : s.IsOneZero) :
    fmul s.AA s.BB = 1 ∧ fmul s.E (fadd (fmuls s.E) s.AA) = 0 := by
  obtain ⟨hX, hZ⟩ := h
  rw [State.E, State.AA, State.BB, hX, hZ]
  decide

theorem isOneZero_pdblLines {s : State} (h : s.IsOneZero) : (runMicro pdblLines s).IsOneZero :=
  ⟨(reg_pdblLines s 2).trans (double_of_isOneZero h).1, (reg_pdblLines s 3).trans (double_of_isOneZero h).2⟩

theorem isOneZero_padblLines {s : State} (h : s.IsOneZero) : (runMicro padblLines s).IsOneZero :=
  ⟨(reg_padblLines s 2).trans (double_of_isOneZero h).1, (reg_padblLines s 3).trans (double_of_isOneZero h).2⟩

theorem isOneZero_run_cswap2_false {s : State} (h : s.IsOneZero) (a b : PairIdx) :
    ((Micro.cswap2 a b false).run s).IsOneZero :=
  ⟨(reg_doCswap2 a b false s 2).trans h.1, (reg_doCswap2 a b false s 3).trans h.2⟩

theorem isOneZero_hostInit (s : State) : (runMicro hostInit s).IsOneZero := by
  simp [State.IsOneZero, hostInit, zextImm]

/-- With every bit zero no iteration swaps. -/
theorem isOneZero_hostIteration {s : State} (h : s.IsOneZero) (i : Nat) :
    (runMicro (hostIteration (fun _ => false) i) s).IsOneZero := by
  rw [hostIteration, bitAbove, Bool.and_false, Bool.false_xor, runMicro_cons]
  exact isOneZero_padblLines (isOneZero_run_cswap2_false h 1 2)

theorem isOneZero_hostLoop {s : State} (h : s.IsOneZero) (n : Nat) :
    (runMicro (hostLoop (fun _ => false) n) s).IsOneZero := by
  induction n with
  | zero => exact h
  | succ n ih =>
    rw [hostLoop_succ, runMicro_append]
    exact isOneZero_hostIteration ih _

theorem isOneZero_hostTail {s : State} (h : s.IsOneZero) : (runMicro (hostTail false) s).IsOneZero := by
  rw [hostTail, runMicro_cons, runMicro_append, runMicro_append]
  exact isOneZero_pdblLines (isOneZero_pdblLines (isOneZero_pdblLines (isOneZero_run_cswap2_false h 1 2)))

/-- Settles O46: with every selector 0 the ladder doubles (1, 0) throughout. -/
theorem ladderOfZeroScalar : Obligations.LadderOfZeroScalar := by
  intro s hbits
  have hcommands : ladderCommands s.kbit = ladderCommands fun _ => false := ladderCommands_congr hbits
  refine ⟨_, exec_ladder_eq s rfl, ?_⟩
  rw [reg_inLadder, reg_inLadder, hcommands, flatMap_linesOf_ladderCommands, runMicro_append, runMicro_append]
  exact isOneZero_hostTail (isOneZero_hostLoop (isOneZero_hostInit s) 252)

end Sys2Proof.Machine
end


section
/-! FINV (44_inversion.md R180 to R186): its lines as commands, the registers after them, and these registers as powers of
the source. -/

namespace Sys2Proof.Machine

open Claims

/-! ### The chain as commands -/

theorem flatMap_linesOf_sqnCommands (t x : RegIdx) (n : Nat) : (sqnCommands t x n).flatMap linesOf = sqn t x n := by
  rw [sqnCommands, List.flatMap_cons, List.flatMap_replicate]
  exact congrArg (Micro.fsqr t x :: ·) List.flatten_replicate_singleton

theorem flatMap_linesOf_finvCommands (d a : RegIdx) : (finvCommands d a).flatMap linesOf = finvLines d a := by
  simp only [finvCommands, finvLines, List.flatten_cons, List.flatten_nil, List.flatMap_append, flatMap_linesOf_sqnCommands]
  rfl

theorem length_sqnCommands (t x : RegIdx) (n : Nat) : (sqnCommands t x (n + 1)).length = n + 1 := by
  simp [sqnCommands]

/-- Settles O49: the lines of the chain's commands are the lines of FINV. -/
theorem finvIsItsChain : Obligations.FinvIsItsChain := by
  refine fun d a => ⟨by simp [finvCommands, length_sqnCommands], fun s => ?_⟩
  rw [execAll_eq_runMicro, flatMap_linesOf_finvCommands]
  exact exec_eq_runMicro _ s

/-! ### The registers after a SQN line -/

@[simp] theorem reg_run_fsqr (t x : RegIdx) (s : State) (r : RegIdx) :
    ((Micro.fsqr t x).run s).reg r = if r = t then fsqr (s.reg x) else s.reg r :=
  reg_setReg ..

theorem reg_runMicro_replicate_fsqr (t : RegIdx) (n : Nat) (s : State) (r : RegIdx) :
    (runMicro (List.replicate n (.fsqr t t)) s).reg r = if r = t then fsqr^[n] (s.reg t) else s.reg r := by
  induction n generalizing s with
  | zero =>
    obtain rfl | h := eq_or_ne r t
    · exact (if_pos rfl).symm
    · exact (if_neg h).symm
  | succ n ih =>
    rw [List.replicate_succ, runMicro_cons, ih, reg_run_fsqr, reg_run_fsqr, if_pos rfl, Function.iterate_succ_apply]
    split <;> rfl

/-- SQN squares its source `n` times (44_inversion.md R182). -/
theorem reg_runMicro_sqn (t x : RegIdx) (n : Nat) (s : State) (r : RegIdx) :
    (runMicro (sqn t x (n + 1)) s).reg r = if r = t then fsqr^[n + 1] (s.reg x) else s.reg r := by
  rw [sqn, runMicro_cons, Nat.add_sub_cancel, reg_runMicro_replicate_fsqr, reg_run_fsqr, reg_run_fsqr, if_pos rfl,
    Function.iterate_succ_apply]
  split <;> rfl

/-! ### The values of the chain -/

section
variable (x : Elem)

/-- `x^9`, line 3. -/
def finvPow9 : Elem := fmul (fsqr^[2] (fsqr x)) x

/-- `x^11`, line 4. -/
def finvPow11 : Elem := fmul (finvPow9 x) (fsqr x)

/-- `x^(2^5 - 1)`, line 6. -/
def finvOnes5 : Elem := fmul (fsqr (finvPow11 x)) (finvPow9 x)

/-- `x^(2^10 - 1)`, line 8. -/
def finvOnes10 : Elem := fmul (fsqr^[5] (finvOnes5 x)) (finvOnes5 x)

/-- `x^(2^20 - 1)`, line 10. -/
def finvOnes20 : Elem := fmul (fsqr^[10] (finvOnes10 x)) (finvOnes10 x)

/-- `x^(2^40 - 1)`, line 12. -/
def finvOnes40 : Elem := fmul (fsqr^[20] (finvOnes20 x)) (finvOnes20 x)

/-- `x^(2^50 - 1)`, line 14. -/
def finvOnes50 : Elem := fmul (fsqr^[10] (finvOnes40 x)) (finvOnes10 x)

/-- `x^(2^100 - 1)`, line 16. -/
def finvOnes100 : Elem := fmul (fsqr^[50] (finvOnes50 x)) (finvOnes50 x)

/-- `x^(2^200 - 1)`, line 18. -/
def finvOnes200 : Elem := fmul (fsqr^[100] (finvOnes100 x)) (finvOnes100 x)

/-- `x^(2^250 - 1)`, line 20. -/
def finvOnes250 : Elem := fmul (fsqr^[50] (finvOnes200 x)) (finvOnes50 x)

/-- `x^(2^255 - 32)`, line 21. -/
def finvTop : Elem := fsqr^[5] (finvOnes250 x)

/-- `x^(P - 2)`, line 22. -/
def finvPower : Elem := fmul (finvTop x) (finvPow11 x)

end

/-- The table of 44_inversion.md R183: each register holds what the last line that writes it gives. The values are folded
into their names line by line; written out, a value would repeat its operands' values. -/
theorem reg_finvLines (d : RegIdx) {a : RegIdx} (ha : isTemporary a = false) (s : State) (r : RegIdx) :
    (runMicro (finvLines d a) s).reg r =
      if r = d then finvPower (s.reg a)
      else if r = 9 then finvTop (s.reg a)
      else if r = 8 then finvOnes100 (s.reg a)
      else if r = 7 then finvOnes50 (s.reg a)
      else if r = 6 then finvPow11 (s.reg a)
      else s.reg r := by
  rw [Bool.eq_false_iff, Ne, isTemporary_iff, not_or, not_or, not_or] at ha
  obtain ⟨h6, -, -, h9⟩ := ha
  simp only [finvLines, List.flatten_cons, List.flatten_nil, runMicro_append, runMicro_cons, runMicro_nil, reg_run_fmul,
    reg_runMicro_sqn, Nat.reduceAdd, Function.iterate_one, h6, h9, if_true, if_false, Fin.reduceEq, ← finvPow9.eq_1,
    ← finvPow11.eq_1, ← finvOnes5.eq_1, ← finvOnes10.eq_1, ← finvOnes20.eq_1, ← finvOnes40.eq_1, ← finvOnes50.eq_1,
    ← finvOnes100.eq_1, ← finvOnes200.eq_1, ← finvOnes250.eq_1, ← finvTop.eq_1, ← finvPower.eq_1]
  split_ifs <;> rfl

/-! ### Powers of the source -/

/-- `w` is `x` multiplied `e` times, in any order of the multiplications. -/
inductive IsPower (x : Elem) : Nat → Elem → Prop
  | self : IsPower x 1 x
  | mul {m n : Nat} {u w : Elem} : IsPower x m u → IsPower x n w → IsPower x (m + n) (fmul u w)

namespace IsPower

variable {x u w : Elem} {m e : Nat}

theorem iterate_fsqr (n : Nat) (h : IsPower x m u) : IsPower x (2^n * m) (fsqr^[n] u) := by
  induction n with
  | zero => simpa using h
  | succ n ih =>
    rw [Function.iterate_succ_apply', Nat.pow_succ', Nat.mul_assoc, Nat.two_mul]
    exact ih.mul ih

/-- The step of the chain (44_inversion.md R182): `k` ones in binary set behind `m` ones are `k + m` ones. -/
theorem ones {k : Nat} (hu : IsPower x (2^m - 1) u) (hw : IsPower x (2^k - 1) w) :
    IsPower x (2^(k + m) - 1) (fmul (fsqr^[k] u) w) := by
  have hexp : 2^k * (2^m - 1) + (2^k - 1) = 2^(k + m) - 1 := by
    rw [Nat.mul_sub, ← Nat.pow_add, Nat.mul_one]
    exact Nat.sub_add_sub_cancel (Nat.pow_le_pow_right Nat.two_pos (Nat.le_add_right k m)) Nat.one_le_two_pow
  exact hexp ▸ (hu.iterate_fsqr k).mul hw

/-- Modulo P the order of the multiplications does not matter. -/
theorem residue_eq (h : IsPower x e w) : residue w = residue x^e := by
  induction h with
  | self => rw [pow_one]
  | mul _ _ hu hw => rw [pow_add, ← hu, ← hw]; exact cast_fmul FP _ _

/-- The powers of a value that is its own square are that value. -/
theorem eq_self (h : IsPower x e w) (hx : fmul x x = x) : w = x := by
  induction h with
  | self => rfl
  | mul _ _ hu hw => rw [hu, hw, hx]

end IsPower

section
variable (x : Elem)

theorem isPower_fsqr : IsPower x 2 (fsqr x) := .mul .self .self

theorem isPower_finvPow9 : IsPower x 9 (finvPow9 x) := ((isPower_fsqr x).iterate_fsqr 2).mul .self

theorem isPower_finvPow11 : IsPower x 11 (finvPow11 x) := (isPower_finvPow9 x).mul (isPower_fsqr x)

theorem isPower_finvOnes5 : IsPower x (2^5 - 1) (finvOnes5 x) :=
  ((isPower_finvPow11 x).iterate_fsqr 1).mul (isPower_finvPow9 x)

theorem isPower_finvOnes10 : IsPower x (2^10 - 1) (finvOnes10 x) :=
  (isPower_finvOnes5 x).ones (isPower_finvOnes5 x)

theorem isPower_finvOnes20 : IsPower x (2^20 - 1) (finvOnes20 x) :=
  (isPower_finvOnes10 x).ones (isPower_finvOnes10 x)

theorem isPower_finvOnes40 : IsPower x (2^40 - 1) (finvOnes40 x) :=
  (isPower_finvOnes20 x).ones (isPower_finvOnes20 x)

theorem isPower_finvOnes50 : IsPower x (2^50 - 1) (finvOnes50 x) :=
  (isPower_finvOnes40 x).ones (isPower_finvOnes10 x)

theorem isPower_finvOnes100 : IsPower x (2^100 - 1) (finvOnes100 x) :=
  (isPower_finvOnes50 x).ones (isPower_finvOnes50 x)

theorem isPower_finvOnes200 : IsPower x (2^200 - 1) (finvOnes200 x) :=
  (isPower_finvOnes100 x).ones (isPower_finvOnes100 x)

theorem isPower_finvOnes250 : IsPower x (2^250 - 1) (finvOnes250 x) :=
  (isPower_finvOnes200 x).ones (isPower_finvOnes50 x)

theorem isPower_finvTop : IsPower x (2^255 - 32) (finvTop x) := by
  have hexp : 2^5 * (2^250 - 1) = 2^255 - 32 := by norm_num
  exact hexp ▸ (isPower_finvOnes250 x).iterate_fsqr 5

theorem isPower_finvPower : IsPower x (Config.P - 2) (finvPower x) := by
  have hexp : 2^255 - 32 + 11 = Config.P - 2 := by norm_num [Config.P]
  exact hexp ▸ (isPower_finvTop x).mul (isPower_finvPow11 x)

end

/-! ### FINV modulo P -/

theorem not_isTemporary_of_wellFormed {d a : RegIdx} (h : Instr.WellFormed (.finv d a)) : isTemporary a = false := by
  simpa [Instr.WellFormed, Instr.wellFormed] using h

section
variable {d a : RegIdx} (ha : isTemporary a = false) (s : State)
include ha

theorem residue_finvLines : residue ((runMicro (finvLines d a) s).reg d) = residue (s.reg a)^(Config.P - 2) := by
  rw [reg_finvLines d ha, if_pos rfl]
  exact (isPower_finvPower _).residue_eq

/-- Every register FINV writes ends as a power of the source. -/
theorem isPower_reg_finvLines {r : RegIdx} (hr : r = d ∨ isTemporary r = true) :
    ∃ e, IsPower (s.reg a) e ((runMicro (finvLines d a) s).reg r) := by
  rw [reg_finvLines d ha]
  split_ifs with hd h9 h8 h7 h6
  · exact ⟨_, isPower_finvPower _⟩
  · exact ⟨_, isPower_finvTop _⟩
  · exact ⟨_, isPower_finvOnes100 _⟩
  · exact ⟨_, isPower_finvOnes50 _⟩
  · exact ⟨_, isPower_finvPow11 _⟩
  · simp [isTemporary_iff, hd, h6, h7, h8, h9] at hr

end

theorem residue_eq_natCast_iff (v : Elem) (n : Nat) : residue v = n ↔ v.toNat % Config.P = n % Config.P :=
  ZMod.natCast_eq_natCast_iff' ..

theorem residue_eq_zero_iff (v : Elem) : residue v = 0 ↔ v.toNat % Config.P = 0 := by
  simpa using residue_eq_natCast_iff v 0

theorem residue_eq_one_iff (v : Elem) : residue v = 1 ↔ v.toNat % Config.P = 1 := by
  have hone : 1 % Config.P = 1 := rfl
  simpa [hone] using residue_eq_natCast_iff v 1

/-- Settles O50: the registers are those of the chain, and the exponents of the chain add up. -/
theorem finvIsThePower : Obligations.FinvIsThePower := by
  intro d a s hwf
  have ha := not_isTemporary_of_wellFormed hwf
  obtain ⟨t, ht, hreg, hbuf, hout, hT, hI⟩ :
      GivesRegisters (.finv d a) s fun r => (runMicro (finvLines d a) s).reg r :=
    givesRegisters_of_reg (fun _ => rfl) (by simp [linesOf, finvLines, writesAny_sqn, Micro.setsSequencer]) fun _ => rfl
  simp only [reg_finvLines d ha] at hreg
  refine ⟨spells_of_encode hwf rfl, t, ht, ?_, fun h => ?_, fun h => ?_, fun h => ?_, fun h => ?_, fun r hrd hr => ?_,
    hbuf, hout, hT, hI⟩
  · simpa [hreg] using (isPower_finvPower _).residue_eq
  · simpa [hreg, h.symm] using (isPower_finvPow11 _).residue_eq
  · simpa [hreg, h.symm] using (isPower_finvOnes50 _).residue_eq
  · simpa [hreg, h.symm] using (isPower_finvOnes100 _).residue_eq
  · simpa [hreg, h.symm] using (isPower_finvTop _).residue_eq
  · have hne : r ≠ 6 ∧ r ≠ 7 ∧ r ≠ 8 ∧ r ≠ 9 := by
      simp only [ne_eq, Fin.ext_iff]
      omega
    simp [hreg, hrd, hne]

/-- Settles O51: by Fermat's little theorem, P being prime. -/
theorem finvIsTheInverse : Obligations.FinvIsTheInverse := by
  intro d a s hwf hne
  have := Fact.mk Laws.prime_P
  have ha := not_isTemporary_of_wellFormed hwf
  refine ⟨_, exec_eq_runMicro _ s, (residue_eq_one_iff _).1 ?_⟩
  calc residue (fmul ((runMicro (finvLines d a) s).reg d) (s.reg a))
      = residue ((runMicro (finvLines d a) s).reg d) * residue (s.reg a) := cast_fmul FP _ _
    _ = residue (s.reg a)^(Config.P - 1) := by rw [residue_finvLines ha, ← pow_succ]; rfl
    _ = 1 := ZMod.pow_card_sub_one_eq_one (mt (residue_eq_zero_iff _).1 hne)

/-- P is its own square, bit for bit. -/
theorem fmul_P : fmul (BitVec.ofNat 256 Config.P) (BitVec.ofNat 256 Config.P) = BitVec.ofNat 256 Config.P := by decide

/-- Settles O52: 0 and P are their own squares, so every power of them is 0 and P. -/
theorem finvOfZero : Obligations.FinvOfZero := by
  intro d a s hwf hzero
  have ha := not_isTemporary_of_wellFormed hwf
  refine ⟨trace_finv d a, _, exec_eq_runMicro _ s, (residue_eq_zero_iff _).1 ?_, fun h0 r hr => ?_, fun hP r hr => ?_⟩
  · change residue ((runMicro (finvLines d a) s).reg d) = 0
    rw [residue_finvLines ha, (residue_eq_zero_iff _).2 hzero, zero_pow (by decide)]
  · obtain ⟨e, he⟩ := isPower_reg_finvLines ha s hr
    rw [h0] at he
    exact he.eq_self (fmul_zero 0)
  · obtain ⟨e, he⟩ := isPower_reg_finvLines ha s hr
    have hsq : fmul (s.reg a) (s.reg a) = s.reg a := by
      rw [BitVec.eq_of_toNat_eq (x := s.reg a) (y := BitVec.ofNat 256 Config.P) (hP.trans rfl)]
      exact fmul_P
    exact (congrArg BitVec.toNat (he.eq_self hsq)).trans hP

end Sys2Proof.Machine
end

section
/-! The strict reduction, and loads and stores (45_codec_toplevel.md R190 to R195, R199, R200): a slot as an integer, its
limbs and its bytes, read and written, and from these the codec commands and their round trips. -/

namespace Sys2Proof.Machine

open Claims

/-! ### The strict reduction -/

/-- A fold of bit 255: `2^255` is 19 modulo P (00_scope.md R8; 45_codec_toplevel.md R192). -/
def fold255 (v : Nat) : Nat := v % 2^255 + 19 * (v / 2^255)

theorem fold255_modEq (v : Nat) : fold255 v ≡ v [MOD Config.P] := by
  have hsplit : fold255 v + Config.P * (v / 2^255) = v := by
    rw [fold255, Config.P]
    omega
  calc fold255 v ≡ fold255 v + Config.P * (v / 2^255) [MOD Config.P] := (Nat.add_mul_mod_self_left ..).symm
    _ = v := hsplit

/-- The first fold leaves at most 2^255 + 18, the second one less than 2·P, so one subtraction of P is left. -/
theorem fold255_fold255_lt {v : Nat} (hv : v < 2^256) : fold255 (fold255 v) < 2 * Config.P := by
  simp only [fold255, Config.P]
  omega

theorem canon_eq (v : Nat) :
    canon v =
      if Config.P ≤ fold255 (fold255 v) then fold255 (fold255 v) - Config.P else fold255 (fold255 v) := rfl

/-- Settles O54: two folds of bit 255 keep the residue and bring the value below 2·P. -/
theorem canonIsTheRemainder : Obligations.CanonIsTheRemainder := by
  intro v
  have hmod : fold255 (fold255 v.toNat) % Config.P = v.toNat % Config.P := (fold255_modEq _).trans (fold255_modEq _)
  have hlt := fold255_fold255_lt v.isLt
  rw [canon_eq, ← hmod]
  split
  · next h => rw [Nat.mod_eq_sub_mod h, Nat.mod_eq_of_lt (by omega)]
  · next h => rw [Nat.mod_eq_of_lt (by omega)]

theorem mod_P_lt (n : Nat) : n % Config.P < 2^255 := (Nat.mod_lt n (by decide)).trans (by decide)

/-! ### A slot as an integer -/

/-- A read of `j + n` bytes is the first `j` and then the other `n`. -/
theorem readLE_add (m : Memory) (a j n : Nat) : m.readLE a (j + n) = m.readLE a j + 2^(8 * j) * m.readLE (a + j) n := by
  induction j generalizing a with
  | zero => simp [Memory.readLE]
  | succ j ih =>
    have haddr : a + (j + 1) = a + 1 + j := by omega
    rw [Nat.add_right_comm, Memory.readLE, Memory.readLE, ih, haddr]
    ring

/-- A run of bytes inside a wide read, as a run of bits of its value. -/
theorem readLE_div_mod (m : Memory) (a j n k : Nat) :
    m.readLE a (j + (n + k)) / 2^(8 * j) % 2^(8 * n) = m.readLE (a + j) n := by
  rw [readLE_add, readLE_add m (a + j), Nat.add_mul_div_left _ _ (Nat.two_pow_pos _),
    Nat.div_eq_of_lt (Memory.readLE_lt ..), Nat.zero_add, Nat.add_mul_mod_self_left, Nat.mod_eq_of_lt (Memory.readLE_lt ..)]

theorem readLE_eq_zero_iff (m : Memory) (a n : Nat) : m.readLE a n = 0 ↔ ∀ t < n, m.read (a + t) = 0#8 := by
  simp [memReadIsTheLittleEndianSum m a n, BitVec.toNat_eq]

theorem readSlot_lt (s : State) (slot : Slot) : s.readSlot slot < 2^256 := Memory.readLE_lt Config.NBYTES _ _

/-- A slot's integer fits a register (45_codec_toplevel.md R191). -/
theorem toNat_ofNat_readSlot (s : State) (slot : Slot) : (BitVec.ofNat 256 (s.readSlot slot)).toNat = s.readSlot slot :=
  Nat.mod_eq_of_lt (readSlot_lt s slot)

theorem toNat_ofNat_readSlot_mod (s : State) (slot : Slot) :
    (BitVec.ofNat 256 (s.readSlot slot % 2^255)).toNat = s.readSlot slot % 2^255 :=
  Nat.mod_eq_of_lt ((Nat.mod_le _ _).trans_lt (readSlot_lt s slot))

/-- Limb `j` of the slot's integer is bytes 8j .. 8j+7 of the slot. -/
theorem limb_readSlot (s : State) (slot : Slot) {j : Nat} (hj : j < 4) :
    (limb (BitVec.ofNat 256 (s.readSlot slot)) j).toNat = s.buf.readLE (slotAddr slot + 8 * j) 8 := by
  have hbytes : Config.NBYTES = 8 * j + (8 + (24 - 8 * j)) := by
    rw [Config.NBYTES]
    omega
  have hbits : 64 * j = 8 * (8 * j) := by omega
  rw [limb, BitVec.extractLsb'_toNat, toNat_ofNat_readSlot, Nat.shiftRight_eq_div_pow, State.readSlot, hbytes, hbits]
  exact readLE_div_mod ..

section
variable {s : State} (hwf : Memory.wf s.buf) (slot : Slot) (v : Nat)
include hwf

/-- A slot just written holds the value, to its 256 bits. -/
theorem readSlot_writeSlot : (s.writeSlot slot v).readSlot slot = v % 2^256 := by
  rw [State.readSlot, writeSlot_buf]
  exact Memory.readLE_writeLE _ _ hwf (slot_inside slot)

theorem read_writeSlot {k : Nat} (hk : k < 32) :
    (s.writeSlot slot v).buf.read (32 * slot.val + k) = BitVec.ofNat 8 (v / 2^(8 * k)) := by
  rw [writeSlot_buf]
  exact Memory.read_writeLE _ _ hwf (slot_inside slot) hk

end

/-- What a write of a slot leaves: the other bytes, and everything but BUF. -/
theorem writeSlot_frame (s : State) (slot : Slot) (v : Nat) :
    (∀ a, (a < 32 * slot.val ∨ 32 * slot.val + 32 ≤ a) → (s.writeSlot slot v).buf.read a = s.buf.read a) ∧
    (∀ x, (s.writeSlot slot v).reg x = s.reg x) ∧ SameOutside s (s.writeSlot slot v) ∧
    (s.writeSlot slot v).seqT = s.seqT ∧ (s.writeSlot slot v).seqI = s.seqI := by
  refine ⟨fun a ha => ?_, fun x => writeSlot_reg s slot v x, by simp [SameOutside], writeSlot_seqT .., writeSlot_seqI ..⟩
  rw [writeSlot_buf]
  exact Memory.read_writeLE_of_outside _ _ _ ha

/-! ### The commands -/

/-- Settles O53: each command is one register write, and the slot's integer fits the register. -/
theorem loadCommands : Obligations.LoadCommands := fun d slot s =>
  ⟨spells_of_encode rfl rfl, spells_of_encode rfl rfl,
    ⟨_, toNat_ofNat_readSlot_mod s slot, givesRegisters_of_reg (fun _ => rfl) rfl (reg_setReg s d _)⟩,
    ⟨_, toNat_ofNat_readSlot s slot, fun _ hj => limb_readSlot s slot hj,
      givesRegisters_of_reg (fun _ => rfl) rfl (reg_setReg s d _)⟩⟩

/-- Settles O55: each command is one write of a slot; `f[r] mod P` is below 2^255. -/
theorem storeCommands : Obligations.StoreCommands := by
  intro slot r s hwf
  refine ⟨spells_of_encode rfl rfl, spells_of_encode rfl rfl,
    ⟨_, exec_eq_runMicro _ s, fun k hk => ?_, ?_, writeSlot_frame s slot _⟩,
    ⟨_, exec_eq_runMicro _ s, fun k hk => ?_, writeSlot_frame s slot _⟩⟩
  · rw [← canonIsTheRemainder (s.reg r)]
    exact read_writeSlot hwf slot _ hk
  · have hbyte : canon (s.reg r).toNat / 2^(8 * 31) < 2^7 :=
      canonIsTheRemainder (s.reg r) ▸ Nat.div_lt_of_lt_mul (mod_P_lt _)
    have hread := read_writeSlot hwf slot (canon (s.reg r).toNat) (show 31 < 32 by decide)
    refine (congrArg (BitVec.getLsbD · 7) hread).trans ?_
    simp only [BitVec.getLsbD_ofNat, Nat.testBit_lt_two_pow hbyte, Bool.and_false]
  · refine (read_writeSlot hwf slot _ hk).trans (BitVec.eq_of_toNat_eq ?_)
    rw [BitVec.extractLsb'_toNat, BitVec.toNat_ofNat, Nat.shiftRight_eq_div_pow]

/-- Settles O60: a wiped register and a wiped byte read as 0; NOP has no lines. -/
theorem wipeAndNop : Obligations.WipeAndNop := by
  refine ⟨decodeOfEncodeIsTheCommand .wipe rfl, decodeOfEncodeIsTheCommand .nop rfl, rfl, fun s => ⟨?_, rfl⟩⟩
  exact ⟨_, rfl, doWipe_reg s, fun _ => rfl, runMicro_sameOutside [.wipe] s, rfl, rfl⟩

/-! ### Loads and stores as lines -/

section
variable (s : State) (slot : Slot) (r : RegIdx)

theorem toNat_reg_run_fdec : (((Micro.fdec r slot).run s).reg r).toNat = s.readSlot slot % 2^255 := by
  rw [Micro.run, doFdec, reg_setReg_self, toNat_ofNat_readSlot_mod]

theorem toNat_reg_run_fldr : (((Micro.fldr r slot).run s).reg r).toNat = s.readSlot slot := by
  rw [Micro.run, doFldr, reg_setReg_self, toNat_ofNat_readSlot]

variable {s} (hwf : Memory.wf s.buf)
include hwf

theorem readSlot_run_fenc : ((Micro.fenc slot r).run s).readSlot slot = (s.reg r).toNat % Config.P := by
  rw [Micro.run, doFenc, readSlot_writeSlot hwf, canonIsTheRemainder (s.reg r)]
  exact Nat.mod_eq_of_lt ((Nat.mod_le _ _).trans_lt (s.reg r).isLt)

theorem readSlot_run_fstr : ((Micro.fstr slot r).run s).readSlot slot = (s.reg r).toNat := by
  rw [Micro.run, doFstr, readSlot_writeSlot hwf, Nat.mod_eq_of_lt (s.reg r).isLt]

end

/-- Settles O56: a slot just written holds what the store says, and `f[r] mod P` is below 2^255. -/
theorem codecRoundTrips : Obligations.CodecRoundTrips := by
  intro slot out r d s hwf
  refine ⟨⟨(Micro.fdec d slot).run ((Micro.fenc slot r).run s), rfl, ?_⟩,
    ⟨(Micro.fldr d slot).run ((Micro.fstr slot r).run s), rfl, BitVec.eq_of_toNat_eq ?_⟩,
    ⟨(Micro.fenc out d).run ((Micro.fdec d slot).run s), rfl, ?_⟩⟩
  · rw [toNat_reg_run_fdec, readSlot_run_fenc slot r hwf]
    exact Nat.mod_eq_of_lt (mod_P_lt _)
  · rw [toNat_reg_run_fldr, readSlot_run_fstr slot r hwf]
  · have hwf' : Memory.wf ((Micro.fdec d slot).run s).buf := run_wf _ s hwf
    exact (readSlot_run_fenc out d hwf').trans (congrArg (· % Config.P) (toNat_reg_run_fdec s slot d))

end Sys2Proof.Machine
end

section
/-! X25519 (45_codec_toplevel.md R196 to R198, R203): its lines as commands, what they leave, and what slot 2 holds after
them: the encoding of the ladder's result point. -/

namespace Sys2Proof.Machine

open Claims

/-! ### The lines of X25519 -/

theorem flatMap_linesOf_x25519Commands : x25519Commands.flatMap linesOf = x25519Lines := by
  simp only [x25519Commands, x25519Lines, encodePointLines, List.flatMap_cons, linesOf, List.append_assoc]
  rfl

theorem reg_runMicro_map_fseti_zero (ds : List RegIdx) (s : State) (r : RegIdx) :
    (runMicro (ds.map (.fseti · 0)) s).reg r = if r ∈ ds then 0 else s.reg r := by
  have hzero : zextImm 0 = 0 := rfl
  induction ds generalizing s with
  | nil => simp
  | cons d ds ih =>
    rw [List.map_cons, runMicro_cons, ih, reg_run_fseti, hzero]
    by_cases hd : r = d <;> simp [hd]

theorem clearWorkLines_eq_map : clearWorkLines = [0, 1, 2, 3, 4, 5, 6, 7, 8, 9].map (.fseti · 0) := rfl

/-- Line 6 zeroes f0 .. f9, whatever they were. -/
theorem reg_clearWorkLines (s : State) {r : RegIdx} (hr : r.val ≤ 9) : (runMicro clearWorkLines s).reg r = 0 := by
  have hmem : ∀ r : RegIdx, r.val ≤ 9 → r ∈ [0, 1, 2, 3, 4, 5, 6, 7, 8, 9] := by decide
  rw [clearWorkLines_eq_map, reg_runMicro_map_fseti_zero, if_pos (hmem r hr)]

theorem buf_clearWorkLines (s : State) : (runMicro clearWorkLines s).buf = s.buf := rfl

/-- Settles O57: no line writes f10 .. f15 or a byte outside slot 2, and the last lines are the ten FSETI. -/
theorem x25519IsItsCommands : Obligations.X25519IsItsCommands := by
  refine ⟨decodeOfEncodeIsTheCommand .x25519 rfl, fun s => ⟨?_, _, exec_eq_runMicro .x25519 s,
    runMicro_sameOutside _ s, fun r hr => ?_, fun r hr => ?_, fun a ha => ?_⟩⟩
  · rw [execAll_eq_runMicro, flatMap_linesOf_x25519Commands]
    exact exec_eq_runMicro .x25519 s
  · rw [linesOf, x25519Lines, runMicro_append]
    exact reg_clearWorkLines _ hr
  · have hnot : writesReg .x25519 r = false := by
      simp only [writesReg, decide_eq_false_iff_not]
      omega
    exact runMicro_same_of_not_written (l := .reg r) ((writesAny_x25519Lines_reg r).trans hnot) s
  · have hnot : inSlot 2 a = false := by
      simp only [inSlot, Bool.and_eq_false_iff, decide_eq_false_iff_not]
      change ¬ 64 ≤ a ∨ ¬ a < 96
      omega
    exact runMicro_same_of_not_written (l := .byte a) ((writesAny_x25519Lines_byte a).trans hnot) s

/-! ### What slot 2 holds -/

/-- The point encoding `X·Z^(P-2) mod P` (45_codec_toplevel.md R197) of the point in (f2, f3). -/
theorem readSlot_encodePointLines {s : State} (hwf : Memory.wf s.buf) :
    (runMicro encodePointLines s).readSlot 2 = (residue (s.reg 2) * residue (s.reg 3)^(Config.P - 2)).val := by
  have hX : (runMicro (finvLines 1 3) s).reg 2 = s.reg 2 := reg_finvLines 1 (by decide) s 2
  have hprod : ((Micro.fmul 1 2 1).run (runMicro (finvLines 1 3) s)).reg 1 =
      fmul (s.reg 2) ((runMicro (finvLines 1 3) s).reg 1) := by
    rw [reg_run_fmul, if_pos rfl, hX]
  rw [encodePointLines, runMicro_append, runMicro_cons, runMicro_cons, runMicro_nil,
    readSlot_run_fenc 2 1 (run_wf _ _ (runMicro_wf _ s hwf)), hprod, ← ZMod.val_natCast]
  refine congrArg ZMod.val ?_
  exact (cast_fmul FP _ _).trans (congrArg (residue (s.reg 2) * ·) (residue_finvLines (by decide) s))

/-- The state in which X25519's ladder starts: f0 is the point's u-coordinate (45_codec_toplevel.md R196, R198). -/
def State.decodedPoint (s : State) : State := (Micro.fdec 0 1).run s

theorem kbit_decodedPoint (s : State) : s.decodedPoint.kbit = s.kbit := rfl

theorem residue_decodedPoint (s : State) : residue (s.decodedPoint.reg 0) = (s.buf.readLE 32 32 % 2^255 : Nat) :=
  congrArg (Nat.cast (R := FP)) (toNat_reg_run_fdec s 1 0)

/-- Slot 2 after X25519 is the encoding of the point that LADDER leaves in (f2, f3). -/
theorem readSlot_x25519Lines {s : State} (hwf : Memory.wf s.buf) :
    (runMicro x25519Lines s).readSlot 2 =
      (residue ((runMicro ladderLines s.decodedPoint).reg 2) *
        residue ((runMicro ladderLines s.decodedPoint).reg 3)^(Config.P - 2)).val := by
  have hladder : Memory.wf (runMicro ladderLines s.decodedPoint).buf :=
    runMicro_wf _ _ (run_wf (.fdec 0 1) s hwf)
  rw [← readSlot_encodePointLines hladder, x25519Lines, runMicro_append, runMicro_append, runMicro_append,
    State.readSlot, buf_clearWorkLines]
  rfl

/-- An execution of a command gives the state after its lines. -/
theorem eq_runMicro_of_exec {i : Instr} {s t : State} (h : exec i s = .next t) : t = runMicro (linesOf i) s :=
  Host.Outcome.next.inj (h.symm.trans (exec_eq_runMicro i s))

/-- LADDER's result registers hold the result of the textbook ladder modulo P. -/
theorem residue_ladderLines (s : State) :
    (residue ((runMicro ladderLines s).reg 2), residue ((runMicro ladderLines s).reg 3)) =
      modResult (residue (s.reg 0)) s.kbit := by
  obtain ⟨t, ht, hresult, -⟩ := ladderRefinesTheLadderModP s
  rwa [eq_runMicro_of_exec ht] at hresult

/-- Settles O58: FDEC gives the ladder its point, LADDER refines the textbook ladder, and the encoding is FINV's power. -/
theorem x25519OutputIsTheLadderModP : Obligations.X25519OutputIsTheLadderModP := by
  intro s hwf
  refine ⟨_, exec_eq_runMicro .x25519 s, (readSlot_x25519Lines hwf).trans ?_⟩
  have hladder := residue_ladderLines s.decodedPoint
  rw [residue_decodedPoint, kbit_decodedPoint] at hladder
  rw [← hladder]

/-! ### The all-zero scalar -/

theorem kbit_eq_false_of_scalar_eq_zero {s : State} (h : s.buf.readLE 0 32 = 0) {i : Nat} (hi : i ≤ 254) :
    s.kbit i = false := by
  have hbyte := (readLE_eq_zero_iff s.buf 0 32).1 h (i / 8) (by omega)
  rw [Nat.zero_add] at hbyte
  simp [State.kbit, hbyte]

/-- With an all-zero scalar the ladder's result has `Z = 0`, whatever the point is (43_ladder.md R170). -/
theorem reg_three_ladderLines_of_zero_scalar {s : State} (h : ∀ i, 3 ≤ i → i ≤ 254 → s.kbit i = false) :
    (runMicro ladderLines s).reg 3 = 0 := by
  obtain ⟨t, ht, -, hZ⟩ := ladderOfZeroScalar s h
  rwa [eq_runMicro_of_exec ht] at hZ

/-- Settles O59: a power of `Z = 0` is 0, so the point encoding is 0. -/
theorem x25519OfZeroScalar : Obligations.X25519OfZeroScalar := by
  intro s hwf hscalar
  have hZ : (runMicro ladderLines s.decodedPoint).reg 3 = 0 :=
    reg_three_ladderLines_of_zero_scalar fun i _ hi => kbit_eq_false_of_scalar_eq_zero hscalar hi
  have hslot : (runMicro x25519Lines s).readSlot 2 = 0 := by
    rw [readSlot_x25519Lines hwf, hZ, (residue_eq_zero_iff 0).2 rfl, zero_pow (by decide), mul_zero,
      ZMod.val_zero]
  refine ⟨_, exec_eq_runMicro .x25519 s, fun a h64 h96 => ?_⟩
  obtain ⟨k, rfl⟩ := Nat.exists_eq_add_of_le h64
  exact (readLE_eq_zero_iff _ 64 32).1 hslot k (by omega)

end Sys2Proof.Machine
end


section
/-! The reset event (70_reset_and_hazards.md R230). -/

namespace Sys2Proof.Machine

/-- A reset turn resets the unit and is taken off the schedule; the completion step is no part of it, running or not. -/
theorem step_reset (s : State) (rest : List Turn) :
    step { s with schedule := .reset :: rest } = .next (resetUnit { s with schedule := rest }) := rfl

/-- Settles O2: each piece of state that R230 names is at its reset value in what `resetUnit` leaves, whatever it was. -/
theorem resetEventClearsEverything : Obligations.ResetEventClearsEverything := fun s rest =>
  ⟨_, step_reset s rest, resetUnit_reg _, fun a => by rw [resetUnit_buf]; rfl,
    resetUnit_cmdr _, resetUnit_busy _, resetUnit_done _, resetUnit_ill _, resetUnit_bacc _⟩

end Sys2Proof.Machine
end
